-- ==== Sys2Proof/Word.lean ====
section
/-! DEFINITION. The word types of the TMG-CA core: bytes (registers, cells, instruction bytes) and the 9-bit program counter. -/

namespace Sys2Proof

/-- A register value, a memory cell or one byte of an instruction: unsigned, 8 bits (R8, R9, R61). -/
abbrev Byte := BitVec 8

/-- The program counter: 9 bits, 0..511, so that 256 is held without wrapping (R26). -/
abbrev Pc := BitVec 9

end Sys2Proof
end

