-- ==== Sys2Proof/Config.lean ====
section
/-! DEFINITION. The fixed parameters of the core (R8) and the types of those an implementation chooses: OPCODE_MAP, HALT_ON_UNRECOGNIZED and the trace port. -/

namespace Sys2Proof

namespace Config

/-- `MEM_SIZE`: addresses are 0..255 (R8, R40). -/
abbrev memSize : Nat := 256

/-- `NUM_REGS`: register indices are 0..7 (R8, R21). -/
abbrev numRegs : Nat := 8

/-- `SP_INDEX`: R7 is the stack pointer (R8, R22). -/
abbrev spIndex : Fin numRegs := 7

/-- `SP_RESET` (R8, R21). -/
abbrev spReset : Byte := 0xF4

/-- `PC_RESET` (R8, R25). -/
abbrev pcReset : Pc := 0

/-- `LOAD_BASE`: the loader writes from here (R8, R211). -/
abbrev loadBase : Nat := 0

/-- `MAX_PROGRAM_BYTES` (R8, R211). -/
abbrev maxProgramBytes : Nat := 256

/-- The most bytes an instruction has (R60). -/
abbrev maxInstrBytes : Nat := 3

end Config

/-- `OPCODE_MAP`: the opcode bytes that the source does not give (R65). HLT, LDI and PRN are fixed by the source
(R64) and are no part of it. The spec's own values are `defaultOpcodes` in Decode.lean. -/
structure OpcodeMap where
  add  : Byte
  mul  : Byte
  push : Byte
  pop  : Byte
  call : Byte
  ret  : Byte
  deriving DecidableEq, Repr

/-- What is fixed when a core is built and no step changes (R8). -/
structure Params where
  /-- `OPCODE_MAP` (R65). -/
  opcodes : OpcodeMap
  /-- `HALT_ON_UNRECOGNIZED` (R88): false by default. -/
  haltOnUnrecognized : Bool
  /-- Whether the optional trace port is present (R191, 93_implementation_defined.md U7). -/
  trace : Bool
  deriving DecidableEq, Repr

end Sys2Proof
end

