-- ==== Sys2Proof/Syntax.lean ====
section
/-! DEFINITION. The instruction set as syntax: one constructor of Instr per row of the opcode map (R2, R63), its opcode and its register operands. -/

namespace Sys2Proof

/-- The rows of the opcode map, by mnemonic (R63). -/
inductive Opcode where
  | hlt | ldi | prn | add | mul | push | pop | call | ret
  deriving DecidableEq, Repr

/-- All nine rows (R2). -/
def Opcode.all : List Opcode := [.hlt, .ldi, .prn, .add, .mul, .push, .pop, .call, .ret]

/-- One instruction with its operand bytes, whole and unmasked (R62): a register operand may name any index
0..255, and an index of 8 or more is encodable and faults at execution. -/
inductive Instr where
  /-- HLT: stop the engine (R86). -/
  | hlt
  /-- LDI opA, opB: load the immediate opB into R[opA] (R100). -/
  | ldi (opA opB : Byte)
  /-- PRN opA: emit R[opA] (R101). -/
  | prn (opA : Byte)
  /-- ADD opA, opB (R122). -/
  | add (opA opB : Byte)
  /-- MUL opA, opB (R123). -/
  | mul (opA opB : Byte)
  /-- PUSH opA (R140). -/
  | push (opA : Byte)
  /-- POP opA (R141). -/
  | pop (opA : Byte)
  /-- CALL opA: push the return address and jump to R[opA] (R160). -/
  | call (opA : Byte)
  /-- RET: pop the return address into the PC (R161). -/
  | ret
  deriving DecidableEq, Repr

/-- The row of the opcode map an instruction belongs to. -/
def Instr.opcode : Instr → Opcode
  | .hlt => .hlt
  | .ldi _ _ => .ldi
  | .prn _ => .prn
  | .add _ _ => .add
  | .mul _ _ => .mul
  | .push _ => .push
  | .pop _ => .pop
  | .call _ => .call
  | .ret => .ret

/-- The operand bytes in the order written and encoded: opA, then opB (R61, R70). -/
def Instr.operands : Instr → List Byte
  | .hlt => []
  | .ldi a b => [a, b]
  | .prn a => [a]
  | .add a b => [a, b]
  | .mul a b => [a, b]
  | .push a => [a]
  | .pop a => [a]
  | .call a => [a]
  | .ret => []

/-- The operands that are register indices, in the order they are checked (R62, R182, R186): LDI's second operand
is an immediate and is not among them. -/
def Instr.regOperands : Instr → List Byte
  | .hlt => []
  | .ldi a _ => [a]
  | .prn a => [a]
  | .add a b => [a, b]
  | .mul a b => [a, b]
  | .push a => [a]
  | .pop a => [a]
  | .call a => [a]
  | .ret => []

end Sys2Proof
end

