-- ==== Sys2Proof/WellFormed.lean ====
section
/-! DEFINITION. What makes an instruction valid (its register operands name registers) and what makes an OPCODE_MAP admissible (the constraints of R65). -/

namespace Sys2Proof

/-- A register index is valid when it is below 8 (R24, R62). -/
abbrev validIndex (idx : Byte) : Prop := idx.toNat < Config.numRegs

/-- Every register operand is a valid index (R24). An instruction that is not well-formed is still encodable and
decodable, and raises InvalidRegister when it executes (R62, R182). -/
abbrev Instr.wf (i : Instr) : Prop := ∀ idx ∈ i.regOperands, validIndex idx

/-- The first register operand that names no register, in the order of the checks (R182, R186). -/
def Instr.firstInvalid (i : Instr) : Option Byte := i.regOperands.find? fun idx => decide (¬ validIndex idx)

/-- The supplied opcode values, one per row of R65. -/
def OpcodeMap.values (m : OpcodeMap) : List Byte := [m.add, m.mul, m.push, m.pop, m.call, m.ret]

/-- Bytes an OPCODE_MAP may not use: the three fixed opcodes and the two bytes the source names as unrecognized (R65). -/
def reservedOpcodes : List Byte := [0x01, 0x82, 0x47, 0x00, 0xFF]

/-- The constraints of R65: the six values are pairwise distinct, and none is a fixed opcode, 0x00 or 0xFF. (That
each row keeps its operand kinds and length is built in: they belong to Opcode, not to the map.) -/
abbrev OpcodeMap.wf (m : OpcodeMap) : Prop := m.values.Nodup ∧ ∀ v ∈ m.values, v ∉ reservedOpcodes

end Sys2Proof
end

