-- ==== Sys2Proof/Decode.lean ====
section
/-! DEFINITION. The decoder (total on any bytes, rejecting by name), the encoder from the same table, instruction lengths and the assembler notation of R70. -/

namespace Sys2Proof

/-- The spec's values for the opcodes the source does not give (R63, R65; the spec's decision D10, log entry 3). -/
def defaultOpcodes : OpcodeMap :=
  { add := 0xA0, mul := 0xA2, push := 0x45, pop := 0x46, call := 0x50, ret := 0x11 }

/-- The opcode byte of each row (R63). -/
def OpcodeMap.byteOf (m : OpcodeMap) : Opcode → Byte
  | .hlt => 0x01
  | .ldi => 0x82
  | .prn => 0x47
  | .add => m.add
  | .mul => m.mul
  | .push => m.push
  | .pop => m.pop
  | .call => m.call
  | .ret => m.ret

/-- Table lookup by equality of the whole opcode byte (R60, R66). -/
def OpcodeMap.lookup (m : OpcodeMap) (op : Byte) : Option Opcode := Opcode.all.find? fun o => m.byteOf o == op

/-- What a row gives the decoder: its format, that is how many operand bytes follow, and the instruction they make
(R61, R66). -/
inductive Handler where
  | f0 (i : Instr)
  | f1 (make : Byte → Instr)
  | f2 (make : Byte → Byte → Instr)

/-- The format and instruction of each row (R62, R63). -/
def Opcode.handler : Opcode → Handler
  | .hlt => .f0 .hlt
  | .ldi => .f2 .ldi
  | .prn => .f1 .prn
  | .add => .f2 .add
  | .mul => .f2 .mul
  | .push => .f1 .push
  | .pop => .f1 .pop
  | .call => .f1 .call
  | .ret => .f0 .ret

/-- How many operand bytes a row declares: 0, 1 or 2 (R60). -/
def Opcode.operandCount (o : Opcode) : Nat :=
  match o.handler with
  | .f0 _ => 0
  | .f1 _ => 1
  | .f2 _ => 2

/-- The length of an instruction in bytes, from its opcode alone (R60, R68). -/
def Opcode.length (o : Opcode) : Nat := 1 + o.operandCount

/-- The length of an instruction in bytes. -/
def Instr.length (i : Instr) : Nat := i.opcode.length

/-- Why bytes are no instruction. -/
inductive Rejection where
  /-- There is no opcode byte. -/
  | noOpcode
  /-- The opcode byte is in no row of the map (R67). -/
  | unrecognized (op : Byte)
  /-- The declared operand byte at this offset from the opcode, 1 or 2, is not there (R82). -/
  | missingOperand (offset : Nat)
  deriving DecidableEq, Repr

/-- Decode from a reader of the byte at each offset. The opcode is read first, then only the operands it declares,
opA before opB (R80, R82): an undeclared byte is never read. -/
def decodeFrom (m : OpcodeMap) (byteAt : Nat → Option Byte) : Except Rejection Instr :=
  match byteAt 0 with
  | none => .error .noOpcode
  | some op =>
    match m.lookup op with
    | none => .error (.unrecognized op)
    | some o =>
      match o.handler with
      | .f0 i => .ok i
      | .f1 make =>
        match byteAt 1 with
        | none => .error (.missingOperand 1)
        | some opA => .ok (make opA)
      | .f2 make =>
        match byteAt 1 with
        | none => .error (.missingOperand 1)
        | some opA =>
          match byteAt 2 with
          | none => .error (.missingOperand 2)
          | some opB => .ok (make opA opB)

/-- Decode the instruction at the head of a list of bytes, with the bytes after it. -/
def decodeWith (m : OpcodeMap) (bytes : List Byte) : Except Rejection (Instr × List Byte) :=
  match decodeFrom m fun k => bytes[k]? with
  | .error r => .error r
  | .ok i => .ok (i, bytes.drop i.length)

/-- The decoder under the spec's opcode map. -/
def decode (bytes : List Byte) : Except Rejection (Instr × List Byte) := decodeWith defaultOpcodes bytes

/-- The bytes of an instruction: its opcode, then opA, then opB (R61, R63). -/
def encodeWith (m : OpcodeMap) (i : Instr) : List Byte := m.byteOf i.opcode :: i.operands

/-- The encoder under the spec's opcode map. -/
def encode (i : Instr) : List Byte := encodeWith defaultOpcodes i

/-- The bytes of an instruction given as one number, bit 0 the least significant bit of the first byte, and bits from
`nbits` up zero: the longest instruction's worth of them. -/
def wordBytes (nbits w : Nat) : List Byte :=
  (List.range Config.maxInstrBytes).map fun k => BitVec.ofNat 8 (w % 2 ^ nbits / 2 ^ (8 * k))

/-- The instruction the decoder reads from a word of the opcode table. -/
def decodeTableWord (nbits w : Nat) : Option Instr :=
  match decode (wordBytes nbits w) with
  | .error _ => none
  | .ok (i, _) => some i

/-- The mnemonic in capitals (R70). -/
def Opcode.mnemonic : Opcode → String
  | .hlt => "HLT"
  | .ldi => "LDI"
  | .prn => "PRN"
  | .add => "ADD"
  | .mul => "MUL"
  | .push => "PUSH"
  | .pop => "POP"
  | .call => "CALL"
  | .ret => "RET"

/-- A register operand as text: R and the decimal index byte, valid or not (R70). -/
def regText (idx : Byte) : String := "R" ++ toString idx.toNat

/-- An instruction in the spec's assembler notation (R70); an immediate is written in decimal (log entry 19). -/
def Instr.assembly : Instr → String
  | .hlt => Opcode.hlt.mnemonic
  | .ldi a b => Opcode.ldi.mnemonic ++ " " ++ regText a ++ ", " ++ toString b.toNat
  | .prn a => Opcode.prn.mnemonic ++ " " ++ regText a
  | .add a b => Opcode.add.mnemonic ++ " " ++ regText a ++ ", " ++ regText b
  | .mul a b => Opcode.mul.mnemonic ++ " " ++ regText a ++ ", " ++ regText b
  | .push a => Opcode.push.mnemonic ++ " " ++ regText a
  | .pop a => Opcode.pop.mnemonic ++ " " ++ regText a
  | .call a => Opcode.call.mnemonic ++ " " ++ regText a
  | .ret => Opcode.ret.mnemonic

end Sys2Proof
end

