-- ==== Sys2Proof/Machine/State.lean ====
section
/-! DEFINITION. The architectural state of the core (R20), its fault record (R31), events (R190) and trace records (R191), the state after reset (R210), and the two stop types of the host's interface. -/

namespace Sys2Proof.Machine

/-- Memory as the list of the cells that do not hold their reset content, in rising address order (R40; the canonical
form is `Memory.wf` in Ops.lean). An unlisted cell reads as 0. -/
abbrev Memory := List Host.Cell

/-- The operation tags the ALU can be given (R121). The decoder passes only `add` and `mul`; `other` keeps the
defensive check of R121 and R183 in the model (log entry 9). -/
inductive AluTag where
  | add
  | mul
  | other (tag : Nat)
  deriving DecidableEq, Repr

/-- The kinds of OutOfBounds (R181). -/
inductive BoundsKind where
  | fetchOpcode
  | fetchOperand
  | stackOverflow
  | stackUnderflow
  | returnAddress
  deriving DecidableEq, Repr

/-- The cause of a fault together with its info (R31, R180). -/
inductive FaultCause where
  /-- OUT_OF_BOUNDS: the kind and the offending integer (R181). -/
  | outOfBounds (kind : BoundsKind) (value : Int)
  /-- INVALID_REGISTER: the offending index byte (R182). -/
  | invalidRegister (index : Byte)
  /-- UNSUPPORTED_OPERATION: the tag; no instruction raises it (R183). -/
  | unsupportedOperation (tag : AluTag)
  /-- UNRECOGNIZED_INSTRUCTION: the opcode byte; only when HALT_ON_UNRECOGNIZED (R88). -/
  | unrecognizedInstruction (opcode : Byte)
  deriving DecidableEq, Repr

/-- The fault record (R31): why the core stopped and the address of the faulting instruction's opcode. -/
structure FaultRecord where
  cause : FaultCause
  pc    : Pc
  deriving DecidableEq, Repr

/-- One event of the core's output stream (R190). -/
inductive Event where
  /-- PRN's output: a register value (R101). -/
  | out (value : Byte)
  /-- The report of an unrecognized opcode at an address (R87). -/
  | unrec (address : Pc)
  deriving DecidableEq, Repr

/-- One record of the trace port (R191): the cycle's opcode address, the bytes at that address and the next two (none
where the address exceeds 255), and the registers after the cycle. -/
structure TraceRecord where
  pc    : Pc
  bytes : List (Option Byte)
  regs  : Vector Byte 8
  deriving DecidableEq, Repr

/-- The state of the core: exactly the components of R20, and its two output streams. -/
structure State where
  /-- The 256 cells (R40). -/
  mem     : Memory
  /-- R0..R7; R7 is the stack pointer (R21, R22). -/
  regs    : Vector Byte 8
  /-- The program counter (R25, R26). -/
  pc      : Pc
  /-- True until HLT or a fault (R29). -/
  running : Bool
  /-- The fault record, set by the fault that stops the core (R31). -/
  fault   : Option FaultRecord
  /-- The events emitted since reset, oldest first (R190). -/
  events  : List Event
  /-- The trace records emitted since reset, oldest first (R191). -/
  trace   : List TraceRecord
  deriving DecidableEq, Repr

/-- Right after reset (R210): memory zero, registers zero except SP = 0xF4, pc 0, running, no fault, no event. (The
trace is empty too: log entry 7.) -/
def State.reset : State where
  mem     := []
  regs    := #v[0, 0, 0, 0, 0, 0, 0, Config.spReset]
  pc      := Config.pcReset
  running := true
  fault   := none
  events  := []
  trace   := []

/-- The reasons a step could answer `Outcome.fault`. There are none: every fault the spec describes has an effect on
the state (R184) and is a next state, so nothing raises an `Outcome.fault`, and that is safe (log entry 1). -/
inductive Fault
  deriving DecidableEq, Repr

/-- The reasons a step could answer `Outcome.refused`. -/
inductive Refusal where
  /-- An arm of exec whose instruction has no meaning yet. No arm raises it: every instruction has its meaning. It
  would be safe. -/
  | notModelled (mnemonic : String)
  deriving DecidableEq, Repr

/-- What a step answers. -/
abbrev Outcome := Host.Outcome State Fault Refusal

end Sys2Proof.Machine
end

