-- ==== Sys2Proof/Machine/Flags.lean ====
section
/-! DEFINITION. The status of the core. There are no condition codes (R28): the only status bit is the running flag (R29); the engine's status derives from it and the fault record (R30); the numeric codes of the fault record (R31, R180, R181). -/

namespace Sys2Proof.Machine

/-- Clear the running flag (R29, R86). -/
def State.halt (s : State) : State := { s with running := false }

/-- The engine's status (R30). -/
inductive Status where
  | running
  | halted
  | faulted
  deriving DecidableEq, Repr

/-- The table of R30. Its fourth combination, running with a fault record, never occurs and has no status (log entry
17). -/
def State.status (s : State) : Option Status :=
  match s.running, s.fault with
  | true, none => some .running
  | false, none => some .halted
  | false, some _ => some .faulted
  | true, some _ => none

/-- The cause codes (R31, R180). -/
def FaultCause.code : FaultCause → Nat
  | .outOfBounds _ _ => 1
  | .invalidRegister _ => 2
  | .unsupportedOperation _ => 3
  | .unrecognizedInstruction _ => 4

/-- The codes of the OutOfBounds kinds (R181). -/
def BoundsKind.code : BoundsKind → Nat
  | .fetchOpcode => 0
  | .fetchOperand => 1
  | .stackOverflow => 2
  | .stackUnderflow => 3
  | .returnAddress => 4

end Sys2Proof.Machine
end

