-- ==== Sys2Proof/Machine/Ops.lean ====
section
/-! DEFINITION. The shared operations over memory, registers, the PC and the streams, and taking a fault as one operation (R184). There is no return from a fault (R188). -/

namespace Sys2Proof.Machine

/-! ### Memory (R40 to R42) -/

/-- The content of a cell: the listed byte, else the reset content 0 (R40, R50). -/
def Memory.read : Memory → Nat → Byte
  | [], _ => 0
  | (b, w) :: rest, a => if a = b then w else Memory.read rest a

/-- Put a cell into its place in rising address order. -/
def Memory.insert (a : Nat) (v : Byte) : Memory → Memory
  | [] => [(a, v)]
  | (b, w) :: rest => if a < b then (a, v) :: (b, w) :: rest else (b, w) :: Memory.insert a v rest

/-- Set a cell (R42). Writing the reset content 0 unlists it, so that equal memories are equal lists. -/
def Memory.write (m : Memory) (a : Nat) (v : Byte) : Memory :=
  if v = 0 then m.filter fun c => c.1 ≠ a else Memory.insert a v (m.filter fun c => c.1 ≠ a)

/-- The canonical form: addresses strictly rising, every address in 0..255, no cell that holds the reset content. -/
abbrev Memory.wf (m : Memory) : Prop :=
  m.Pairwise (fun x y => x.1 < y.1) ∧ ∀ c ∈ m, c.1 < Config.memSize ∧ c.2 ≠ 0

/-- `MemRead(a, 1)` (R41): none is the access the spec fails with OutOfBounds. -/
def State.memRead (s : State) (a : Nat) : Option Byte := if a < Config.memSize then some (s.mem.read a) else none

/-- The byte at a byte address, which is always in range (R41, R181): where POP and RET read. -/
def State.load (s : State) (a : Byte) : Byte := s.mem.read a.toNat

/-- `MemWrite(a, 1, v)` at a byte address, which is always in range (R42, R181): where PUSH and CALL write. -/
def State.store (s : State) (a v : Byte) : State := { s with mem := s.mem.write a.toNat v }

/-! ### Registers (R21, R22) -/

/-- Read `R[i]`. -/
def State.reg (s : State) (i : Fin Config.numRegs) : Byte := s.regs[i]

/-- Write `R[i]`. No register is hardwired (R21). -/
def State.setReg (s : State) (i : Fin Config.numRegs) (v : Byte) : State := { s with regs := s.regs.set i v }

/-- SP is another name for `R[7]` (R10, R22). -/
def State.sp (s : State) : Byte := s.reg Config.spIndex

/-- Write SP. -/
def State.setSp (s : State) (v : Byte) : State := s.setReg Config.spIndex v

/-! ### Program counter (R25, R27, R84) -/

/-- `pc <- t`. -/
def State.setPc (s : State) (t : Pc) : State := { s with pc := t }

/-- The PC advance of every instruction but CALL and RET: past the opcode and the operands it declares (R84). The
sum fits in 9 bits wherever an instruction can be fetched (R26; log entry 8). -/
def State.advance (s : State) (o : Opcode) : State := s.setPc (s.pc + BitVec.ofNat 9 o.length)

/-! ### Events (R190) -/

/-- `Emit(e)`: append to the event stream. -/
def State.emit (s : State) (e : Event) : State := { s with events := s.events ++ [e] }

/-! ### Faults (R180 to R184) -/

/-- Take a fault (R184): the running flag falls and the record is set with the address of the instruction, and every
register, cell, the PC and the streams keep the value they had before the cycle. -/
def State.raise (s : State) (c : FaultCause) : State :=
  { s with running := false, fault := some { cause := c, pc := s.pc } }

/-- Commit an instruction as a whole or not at all (R83): its effect where it raised nothing, else the fault, taken in
the state before the instruction. -/
def State.commit (s : State) (effect : Except FaultCause State) : Outcome :=
  match effect with
  | .ok t => .next t
  | .error c => .next (s.raise c)

/-! ### The stack pointer (R142, R143) -/

/-- A new SP value, computed on unbounded integers: below 0 it is an overflow, above 255 an underflow (R143). -/
def checkSp (t : Int) : Except FaultCause Byte :=
  if t < 0 then .error (.outOfBounds .stackOverflow t)
  else if t > 255 then .error (.outOfBounds .stackUnderflow t)
  else .ok (BitVec.ofInt 8 t)

/-- The SP after a push: one lower (R142). -/
def State.spDown (s : State) : Except FaultCause Byte := checkSp (s.sp.toNat - 1)

/-- The SP after a pop: one higher (R142). -/
def State.spUp (s : State) : Except FaultCause Byte := checkSp (s.sp.toNat + 1)

end Sys2Proof.Machine
end

