-- ==== Sys2Proof/Machine/Operands.lean ====
section
/-! DEFINITION. The operand forms (R62): a register index byte, validated whole (R24, R182). An imm8 operand is the byte itself and needs no operation. -/

namespace Sys2Proof.Machine

/-- The register an operand byte names, or InvalidRegister for 8 and above (R182). -/
def regOperand (idx : Byte) : Except FaultCause (Fin Config.numRegs) :=
  if h : validIndex idx then .ok ⟨idx.toNat, h⟩ else .error (.invalidRegister idx)

/-- The return address of a CALL at the current PC, which must fit in a memory byte (R160, R181). -/
def State.returnAddress (s : State) : Except FaultCause Byte :=
  if s.pc.toNat + Opcode.call.length > 255 then
    .error (.outOfBounds .returnAddress (s.pc.toNat + Opcode.call.length : Nat))
  else .ok (BitVec.ofNat 8 (s.pc.toNat + Opcode.call.length))

end Sys2Proof.Machine
end

