-- ==== Sys2Proof/Machine/Alu.lean ====
section
/-! DEFINITION. The ALU and its two instructions (R120 to R124). -/

namespace Sys2Proof.Machine

/-- Reduce a result modulo 256 (R124): no carry or overflow is kept. -/
def narrow (n : Nat) : Byte := BitVec.ofNat 8 n

/-- The value an operation computes from the destination's and the source's values, exact and then reduced (R122,
R123); none for a tag the ALU does not have (R121). -/
def aluValue (tag : AluTag) (a b : Byte) : Option Byte :=
  match tag with
  | .add => some (narrow (a.toNat + b.toNat))
  | .mul => some (narrow (a.toNat * b.toNat))
  | .other _ => none

/-- `apply(operation, destRegIndex, srcRegIndex)` (R120): both indices validated, dest before src, then the result of
the two registers into the destination; an unknown tag is UnsupportedOperation (R121). -/
def aluApply (tag : AluTag) (dest src : Byte) (s : State) : Except FaultCause State :=
  match regOperand dest with
  | .error c => .error c
  | .ok d =>
    match regOperand src with
    | .error c => .error c
    | .ok r =>
      match aluValue tag (s.reg d) (s.reg r) with
      | none => .error (.unsupportedOperation tag)
      | some v => .ok (s.setReg d v)

/-- An ALU instruction: the engine applies the ALU with dest = opA and src = opB and advances the PC (R120, R84). -/
def aluEffect (tag : AluTag) (o : Opcode) (opA opB : Byte) (s : State) : Except FaultCause State :=
  match aluApply tag opA opB s with
  | .error c => .error c
  | .ok t => .ok (t.advance o)

/-- ADD (R122). -/
def execAdd (opA opB : Byte) (s : State) : Outcome := s.commit (aluEffect .add .add opA opB s)

/-- MUL (R123). -/
def execMul (opA opB : Byte) (s : State) : Outcome := s.commit (aluEffect .mul .mul opA opB s)

end Sys2Proof.Machine
end

