-- ==== Sys2Proof/Machine/Engine.lean ====
section
/-! DEFINITION. HLT, the instruction the engine itself handles (R86). -/

namespace Sys2Proof.Machine

/-- HLT (R86): stop after this cycle, with the PC at the byte after it. -/
def execHlt (s : State) : Outcome := s.commit (.ok (s.halt.advance .hlt))

end Sys2Proof.Machine
end

