-- ==== Sys2Proof/Machine/RegisterIo.lean ====
section
/-! DEFINITION. LDI and PRN (R100, R101). -/

namespace Sys2Proof.Machine

/-- LDI (R100): the immediate, unchanged, into the register opA. -/
def ldiEffect (opA opB : Byte) (s : State) : Except FaultCause State :=
  match regOperand opA with
  | .error c => .error c
  | .ok r => .ok ((s.setReg r opB).advance .ldi)

/-- LDI as an instruction. -/
def execLdi (opA opB : Byte) (s : State) : Outcome := s.commit (ldiEffect opA opB s)

/-- PRN (R101): the value of the register opA as an output event. -/
def prnEffect (opA : Byte) (s : State) : Except FaultCause State :=
  match regOperand opA with
  | .error c => .error c
  | .ok r => .ok ((s.emit (.out (s.reg r))).advance .prn)

/-- PRN as an instruction. -/
def execPrn (opA : Byte) (s : State) : Outcome := s.commit (prnEffect opA s)

end Sys2Proof.Machine
end

