-- ==== Sys2Proof/Machine/Stack.lean ====
section
/-! DEFINITION. PUSH and POP (R140 to R143). -/

namespace Sys2Proof.Machine

/-- PUSH (R140): SP is decremented, then the register is read, so that R7 stores the decremented SP, and the value is
written at the new SP. -/
def pushEffect (opA : Byte) (s : State) : Except FaultCause State :=
  match regOperand opA with
  | .error c => .error c
  | .ok r =>
    match s.spDown with
    | .error c => .error c
    | .ok t =>
      let s := s.setSp t
      .ok ((s.store t (s.reg r)).advance .push)

/-- PUSH as an instruction. -/
def execPush (opA : Byte) (s : State) : Outcome := s.commit (pushEffect opA s)

/-- POP (R141): the byte at SP goes to the register, then SP, which for R7 is the value just written, is incremented. -/
def popEffect (opA : Byte) (s : State) : Except FaultCause State :=
  match regOperand opA with
  | .error c => .error c
  | .ok r =>
    let s := s.setReg r (s.load s.sp)
    match s.spUp with
    | .error c => .error c
    | .ok t => .ok ((s.setSp t).advance .pop)

/-- POP as an instruction. -/
def execPop (opA : Byte) (s : State) : Outcome := s.commit (popEffect opA s)

end Sys2Proof.Machine
end

