-- ==== Sys2Proof/Machine/Transfer.lean ====
section
/-! DEFINITION. CALL and RET, the only control transfers (R160 to R162). -/

namespace Sys2Proof.Machine

/-- CALL (R160): SP is decremented, the return address is written at the new SP, and the PC is set to the register, read
after the decrement. The SP check comes before that of the return address (R186). -/
def callEffect (opA : Byte) (s : State) : Except FaultCause State :=
  match regOperand opA with
  | .error c => .error c
  | .ok r =>
    match s.spDown with
    | .error c => .error c
    | .ok t =>
      match s.returnAddress with
      | .error c => .error c
      | .ok back =>
        let s := (s.setSp t).store t back
        .ok (s.setPc ((s.reg r).setWidth 9))

/-- CALL as an instruction. -/
def execCall (opA : Byte) (s : State) : Outcome := s.commit (callEffect opA s)

/-- RET (R161): the PC is set to the byte at SP, and SP is incremented. -/
def retEffect (s : State) : Except FaultCause State :=
  match s.spUp with
  | .error c => .error c
  | .ok t => .ok ((s.setSp t).setPc ((s.load s.sp).setWidth 9))

/-- RET as an instruction. -/
def execRet (s : State) : Outcome := s.commit (retEffect s)

end Sys2Proof.Machine
end

