-- ==== Sys2Proof/Machine/Dispatch.lean ====
section
/-! DEFINITION. The dispatch of an instruction to its meaning (R80 phase 4). -/

namespace Sys2Proof.Machine

/-- Execute one decoded instruction. -/
def exec (i : Instr) (s : State) : Host.Outcome State Fault Refusal :=
  match i with
  | .hlt => Sys2Proof.Machine.execHlt s
  | .ldi opA opB => Sys2Proof.Machine.execLdi opA opB s
  | .prn opA => Sys2Proof.Machine.execPrn opA s
  | .add opA opB => Sys2Proof.Machine.execAdd opA opB s
  | .mul opA opB => Sys2Proof.Machine.execMul opA opB s
  | .push opA => Sys2Proof.Machine.execPush opA s
  | .pop opA => Sys2Proof.Machine.execPop opA s
  | .call opA => Sys2Proof.Machine.execCall opA s
  | .ret => Sys2Proof.Machine.execRet s

end Sys2Proof.Machine
end

