-- ==== Sys2Proof/Machine/Cycle.lean ====
section
/-! DEFINITION. One cycle of the engine (R80): fetch and decode, unrecognized opcodes, execution, the trace observer. Step.lean only calls it. -/

namespace Sys2Proof.Machine

/-- The core as the spec's defaults build it: the spec's opcode map (R65), lenient on unrecognized opcodes (R88), and
the trace port present (log entry 5). -/
def defaultParams : Params := { opcodes := defaultOpcodes, haltOnUnrecognized := false, trace := true }

/-- The byte at an offset from the PC; none above address 255, where the fetch never wraps (R26, R41, R81, R82). -/
def State.fetchByte (s : State) (k : Nat) : Option Byte := s.memRead (s.pc.toNat + k)

/-- Fetch and decode the instruction at the PC: the opcode, then the operands it declares (R80 phases 1 to 3). -/
def State.fetch (m : OpcodeMap) (s : State) : Except Rejection Instr := decodeFrom m s.fetchByte

/-- An unrecognized opcode: reported and skipped (R87), or, in the strict setting, reported and then a fault, with the
PC unchanged (R88). -/
def State.skipUnrecognized (p : Params) (op : Byte) (s : State) : State :=
  if p.haltOnUnrecognized then (s.emit (.unrec s.pc)).raise (.unrecognizedInstruction op)
  else (s.emit (.unrec s.pc)).setPc (s.pc + 1)

/-- A fetch that found no instruction: the opcode's or a declared operand's address is above 255 (R81, R82), or the
opcode is in no row of the map. -/
def State.rejected (p : Params) (s : State) : Rejection → State
  | .noOpcode => s.raise (.outOfBounds .fetchOpcode (s.pc.toNat : Nat))
  | .missingOperand k => s.raise (.outOfBounds .fetchOperand (s.pc.toNat + k : Nat))
  | .unrecognized op => s.skipUnrecognized p op

/-- The trace record of a cycle from `s` to `t` (R191): the address and the three bytes as they were fetched, and the
registers after the cycle (log entry 6). -/
def traceRecord (s t : State) : TraceRecord :=
  { pc := s.pc, bytes := [s.fetchByte 0, s.fetchByte 1, s.fetchByte 2], regs := t.regs }

/-- The trace observer (R80 phase 5, R191): one record after a cycle that did not fault, where the port is present. -/
def observe (p : Params) (s t : State) : State :=
  if p.trace ∧ t.fault = none then { t with trace := t.trace ++ [traceRecord s t] } else t

/-- The instruction part of a cycle: the fetched instruction's meaning, or what the engine does without one. -/
def State.dispatch (p : Params) (s : State) : Outcome :=
  match s.fetch p.opcodes with
  | .ok i => exec i s
  | .error r => .next (s.rejected p r)

/-- One cycle (R80) of a core with parameters `p`. A stopped core runs no phase of it and keeps its state (R85, R192,
R194; log entry 2). -/
def cycle (p : Params) (s : State) : Outcome :=
  if s.running then
    match s.dispatch p with
    | .next t => .next (observe p s t)
    | .fault r => .fault r
    | .refused r => .refused r
  else .next s

/-- Memory after bytes are written in order from an address (R211). -/
def Memory.writeBytes : Memory → Nat → List Byte → Memory
  | m, _, [] => m
  | m, a, v :: vs => Memory.writeBytes (m.write a v) (a + 1) vs

/-- The bytes of a word of the opcode table stored at the PC, as many as lie at 255 or below, in a core that runs. -/
def State.placeWord (s : State) (nbits w : Nat) : State :=
  { s with
    mem := s.mem.writeBytes s.pc.toNat ((wordBytes nbits w).take (Config.memSize - s.pc.toNat))
    running := true }

end Sys2Proof.Machine
end

