-- ==== Sys2Proof/Machine/Step.lean ====
section
/-! DEFINITION. One step of the machine: a cycle of the core with the spec's default parameters (R217), and the host's way to place an instruction where the next step fetches. -/

namespace Sys2Proof.Machine

/-- One step: one cycle under the spec's default parameters (R80, R217). -/
def step (s : State) : Host.Outcome State Fault Refusal := cycle defaultParams s

/-- The state with an instruction's word stored where the next step fetches (log entry 13). -/
def State.withFetchWord (s : State) (nbits w : Nat) : State := s.placeWord nbits w

end Sys2Proof.Machine
end

