-- ==== Sys2Proof/Machine/Port.lean ====
section
/-! DEFINITION. The host's side of the core (R192): reset, load, step, status, inspect, the loading window (R211, R212), and runs with or without a ceiling (R85, R89). -/

namespace Sys2Proof.Machine

/-- Why a load failed (R185, R212). -/
inductive LoadFailure where
  /-- More than 256 bytes. -/
  | programTooLarge
  /-- The host could not read the program or found malformed text. -/
  | loadError
  deriving DecidableEq, Repr

/-- The program's bytes into `mem[0..n-1]`, in order (R211). -/
def State.loadBytes (s : State) (bytes : List Byte) : State :=
  { s with mem := s.mem.writeBytes Config.loadBase bytes }

/-- The loader: too large a program fails before any cell is written (R211, R212). -/
def State.loadProgram (s : State) (bytes : List Byte) : Except LoadFailure State :=
  if bytes.length > Config.maxProgramBytes then .error .programTooLarge else .ok (s.loadBytes bytes)

/-- Where the host stands since the last reset (R192, R211, R214; log entries 12 and 20). -/
inductive Phase where
  /-- No cycle has run since reset: a load is allowed, and so is a cycle, loaded or not (log entry 20). -/
  | loadable
  /-- A load failed: no cycle runs. -/
  | loadFailed (why : LoadFailure)
  /-- A cycle has run: no load is allowed until reset. -/
  | started
  deriving DecidableEq, Repr

/-- A core and where its host stands. -/
structure Session where
  core  : State
  phase : Phase
  deriving DecidableEq, Repr

/-- What the host can do to the core (R192): its three input ports. A program that cannot be read or is malformed text
reaches the core as `loadError` (R212). -/
inductive HostInput where
  | reset
  | load (bytes : List Byte)
  | loadError
  | step
  deriving DecidableEq, Repr

/-- Right after reset (R210, R213). -/
def Session.fresh : Session := { core := State.reset, phase := .loadable }

/-- The load port: open only while no cycle has run since reset (R211). A failed load leaves the core as it was and
bars every cycle (R212). -/
def Session.load (h : Session) (program : Except LoadFailure (List Byte)) : Option Session :=
  match h.phase with
  | .loadable =>
    match program.bind h.core.loadProgram with
    | .ok t => some { h with core := t }
    | .error why => some { h with phase := .loadFailed why }
  | .loadFailed _ => none
  | .started => none

/-- The step port: one cycle if the core runs (R192), and none after a failed load (R212). DESIGN CHOICE: it is open
right after reset, with no load, as if an empty program had been loaded (log entry 20; unsafe); R214 gives the host the
order reset, load, cycles and does not say what the port does otherwise. -/
def Session.step (p : Params) (h : Session) : Option Session :=
  match h.phase with
  | .loadFailed _ => none
  | .loadable | .started =>
    match cycle p h.core with
    | .next t => some { core := t, phase := .started }
    | .fault _ => none
    | .refused _ => none

/-- One move of the host between two cycles (R192); none where the port is closed. Reset is open at any time. -/
def Session.input (p : Params) (h : Session) : HostInput → Option Session
  | .reset => some .fresh
  | .load bytes => h.load (.ok bytes)
  | .loadError => h.load (.error .loadError)
  | .step => h.step p

/-- The status port (R192): the running flag and the fault record. -/
def State.statusPort (s : State) : Bool × Option FaultRecord := (s.running, s.fault)

/-- The inspect port: a read-only view of memory, registers and PC (R192), and of the fault record, which R194 says stays
visible through it. -/
structure Inspection where
  cells : List Byte
  regs  : Vector Byte 8
  pc    : Pc
  fault : Option FaultRecord
  deriving DecidableEq, Repr

/-- What the inspect port shows: all 256 cells, R0..R7, the PC and the fault record (R192, R194). -/
def State.inspect (s : State) : Inspection :=
  { cells := (List.range Config.memSize).map s.mem.read, regs := s.regs, pc := s.pc, fault := s.fault }

/-- The event port (R192): the stream of R190. -/
def State.eventPort (s : State) : List Event := s.events

/-- The trace port (R191, R192). -/
def State.tracePort (s : State) : List TraceRecord := s.trace

/-- `while running: Step()` under the ceiling `maxSteps` (R85, R89; log entry 14): where the core still runs at the end,
the run was cut off and has not ended. -/
def runUpTo (p : Params) : Nat → State → Outcome
  | 0, s => .next s
  | n + 1, s =>
    if s.running then
      match cycle p s with
      | .next t => runUpTo p n t
      | .fault r => .fault r
      | .refused r => .refused r
    else .next s

end Sys2Proof.Machine
end

