-- ==== Sys2Proof/Safety.lean ====
section
/-! DEFINITION. What claims about the core are stated in: the state a fault leaves (R184), what a fault record may say (R181 to R183, R88), the invariant of the state, and the ends of a run (R215). -/

namespace Sys2Proof.Machine

/-- The next state an outcome answers, where it answers one. -/
def nextOf : Outcome → Option State
  | .next t => some t
  | .fault _ => none
  | .refused _ => none

/-- The state a fault leaves, field by field from R184: everything as before the cycle but the running flag and the
fault record. -/
def faultedAs (s : State) (c : FaultCause) : State where
  mem     := s.mem
  regs    := s.regs
  pc      := s.pc
  running := false
  fault   := some { cause := c, pc := s.pc }
  events  := s.events
  trace   := s.trace

/-- What a fault record can hold (R181 to R183): each kind of OutOfBounds with its one value, an index byte of 8 or
more, never UnsupportedOperation, and an unrecognized opcode only in the strict setting (R88). -/
def legalCause (p : Params) : FaultCause → Prop
  | .outOfBounds .stackOverflow v => v = -1
  | .outOfBounds .fetchOpcode v => v = 256
  | .outOfBounds .fetchOperand v => v = 256
  | .outOfBounds .stackUnderflow v => v = 256
  | .outOfBounds .returnAddress v => v = 256
  | .invalidRegister idx => 8 ≤ idx.toNat
  | .unsupportedOperation _ => False
  | .unrecognizedInstruction op => p.haltOnUnrecognized = true ∧ p.opcodes.lookup op = none

/-- The invariant of a core with parameters `p`. -/
structure Inv (p : Params) (s : State) : Prop where
  /-- Memory is in its canonical form, within 0..255 (R40). -/
  memory : s.mem.wf
  /-- The PC is at most 256 (R26). -/
  pcRange : s.pc.toNat ≤ 256
  /-- Running with a fault record never occurs (R30). -/
  running : s.running = true → s.fault = none
  /-- A fault record holds the PC in state (R31) and a cause the core can raise (R181 to R183). -/
  record : ∀ r, s.fault = some r → r.pc = s.pc ∧ legalCause p r.cause
  /-- Unrecognized opcodes are reported at addresses 0..255 (R190). -/
  reports : ∀ a, Event.unrec a ∈ s.events → a.toNat ≤ 255

/-- A run has ended when the running flag is false (R215). -/
abbrev State.ended (s : State) : Prop := s.running = false

/-- The states a run reaches: a program of at most 256 bytes loaded after reset, then cycles (R211, R213). -/
inductive Reachable (p : Params) : State → Prop where
  | loaded (bytes : List Byte) (t : State) : State.reset.loadProgram bytes = .ok t → Reachable p t
  | cycle (s t : State) : Reachable p s → Machine.cycle p s = .next t → Reachable p t

/-! ### Frames -/

/-- Every byte of memory reads as before. -/
def sameMemory (s t : State) : Prop := ∀ a, t.mem.read a = s.mem.read a

/-- Every register reads as before. -/
def sameRegs (s t : State) : Prop := ∀ q, t.reg q = s.reg q

/-- The running flag, the fault record and the trace are as before. -/
def sameStatus (s t : State) : Prop := t.running = s.running ∧ t.fault = s.fault ∧ t.trace = s.trace

/-- The states agree on everything but the trace (R191: the observer is no part of execution). -/
def sameButTrace (s t : State) : Prop :=
  t.mem = s.mem ∧ t.regs = s.regs ∧ t.pc = s.pc ∧ t.running = s.running ∧ t.fault = s.fault ∧ t.events = s.events

/-! ### Which fault a cycle raises -/

/-- R82 for an opcode byte that declares `n` operands: an instruction that starts so high that a declared operand lies
above 255 faults, and the address recorded is 256 (R181). -/
def operandFetchFaults (op : Byte) (n : Nat) : Prop :=
  ∀ s : State, s.running = true → s.pc.toNat ≤ 255 → s.mem.read s.pc.toNat = op → 255 < s.pc.toNat + n →
    step s = .next (faultedAs s (.outOfBounds .fetchOperand 256))

/-- The one fault a cycle from a running state raises, if any: the first check that fails, in the order of R186. -/
def firstFault (p : Params) (s : State) : Option FaultCause :=
  let pc := s.pc.toNat
  let op := s.mem.read pc
  let opA := s.mem.read (pc + 1)
  let opB := s.mem.read (pc + 2)
  if 255 < pc then some (.outOfBounds .fetchOpcode pc)
  else
    match p.opcodes.lookup op with
    | none => if p.haltOnUnrecognized then some (.unrecognizedInstruction op) else none
    | some o =>
      if o ∉ [.hlt, .ret] ∧ 255 < pc + 1 then some (.outOfBounds .fetchOperand (pc + 1))
      else if o ∈ [.ldi, .add, .mul] ∧ 255 < pc + 2 then some (.outOfBounds .fetchOperand (pc + 2))
      else if o ∉ [.hlt, .ret] ∧ 8 ≤ opA.toNat then some (.invalidRegister opA)
      else if o ∈ [.add, .mul] ∧ 8 ≤ opB.toNat then some (.invalidRegister opB)
      else if o ∈ [.push, .call] ∧ s.sp = 0 then some (.outOfBounds .stackOverflow (-1))
      else if o = .ret ∧ s.sp = 255 then some (.outOfBounds .stackUnderflow 256)
      else if o = .pop ∧ (if opA = 7 then s.load s.sp = 255 else s.sp = 255) then
        some (.outOfBounds .stackUnderflow 256)
      else if o = .call ∧ 255 < pc + 2 then some (.outOfBounds .returnAddress (pc + 2))
      else none

/-! ### Consecutive instructions -/

/-- The same instruction executed `n` times, each time in the state the time before left. -/
def execTimes (i : Instr) : Nat → State → Outcome
  | 0, s => .next s
  | n + 1, s =>
    match exec i s with
    | .next t => execTimes i n t
    | .fault r => .fault r
    | .refused r => .refused r

end Sys2Proof.Machine
end

