-- ==== Sys2Proof/Certificates/Slice0/Obligations.lean ====
section
/-! DEFINITION. The statements about the core for the provers: reset and load, the encoding, the cycle, every instruction's rule, and the whole-machine rules. -/

open Sys2Proof Sys2Proof.Machine

/-! ### Reset and load -/

/-- From R210: the values after reset. The last clause says more than R210 and rests on the model's choices: the reset
port gives exactly `State.reset`, so an empty trace too (log entry 7, DESIGN CHOICE), and opens loading from any session,
a failed load's included (log entry 12, DEDUCED). -/
def Obligations.ResetGivesConstructionState : Prop :=
  (∀ a, State.reset.mem.read a = 0) ∧ (∀ q, State.reset.reg q = if q = 7 then 0xF4 else 0) ∧ State.reset.pc = 0 ∧
  State.reset.running = true ∧ State.reset.fault = none ∧ State.reset.events = [] ∧
  ∀ p h, ∃ h', Session.input p h .reset = some h' ∧ h'.core = State.reset ∧ h'.phase = .loadable

/-- The invariant holds at reset, for every core. -/
def Obligations.ResetMeetsInvariant : Prop := ∀ p, Inv p State.reset

/-- From R211: a program of at most 256 bytes lies at 0.., the other cells and the rest of the state stay as reset left
them; a longer one fails; and no load is allowed once a cycle has run. That the phase stays `loadable` after a load that
succeeds (a second load is open) is the model's choice (log entry 12, DEDUCED). -/
def Obligations.LoadWritesProgramFromZero : Prop :=
  (∀ p bytes, bytes.length ≤ 256 → ∃ h, Session.fresh.input p (.load bytes) = some h ∧ h.phase = .loadable ∧
    (∀ a (ha : a < bytes.length), h.core.mem.read a = bytes[a]) ∧
    (∀ a, bytes.length ≤ a → h.core.mem.read a = 0) ∧ h.core.mem.wf ∧
    h.core.regs = State.reset.regs ∧ h.core.pc = 0 ∧ h.core.running = true ∧ h.core.fault = none ∧
    h.core.events = []) ∧
  (∀ p bytes, 256 < bytes.length → ∃ h, Session.fresh.input p (.load bytes) = some h ∧
    h.phase = .loadFailed .programTooLarge) ∧
  (∀ p h h' bytes, Session.input p h .step = some h' → h'.input p (.load bytes) = none)

/-- From R212: a load that fails, for its size or at the host, leaves every cell as it was, and no cycle follows. That
no further load is accepted either, until reset, is the model's choice (log entry 12, DEDUCED). -/
def Obligations.FailedLoadRunsNoCycle : Prop :=
  ∀ p (x : HostInput) (why : LoadFailure),
    ((∃ bytes, x = .load bytes ∧ 256 < bytes.length ∧ why = .programTooLarge) ∨ (x = .loadError ∧ why = .loadError)) →
    ∀ h : Session, h.phase = .loadable →
      ∃ h', h.input p x = some h' ∧ h'.phase = .loadFailed why ∧ h'.core = h.core ∧
        h'.input p .step = none ∧ ∀ bytes, h'.input p (.load bytes) = none

/-- R213: a run starts Running in the state of R210 with the program loaded: every cell after the program's reads 0, no
event has been emitted, and the first cycle fetches the program's bytes from address 0. -/
def Obligations.RunStartsAtAddressZero : Prop :=
  ∀ (bytes : List Byte) (t : State), State.reset.loadProgram bytes = .ok t →
    t.status = some .running ∧ t.pc = 0 ∧ t.regs = State.reset.regs ∧ t.events = [] ∧
    (∀ k (hk : k < bytes.length), t.fetchByte k = some bytes[k]) ∧
    ∀ a, bytes.length ≤ a → t.mem.read a = 0

/-! ### Encoding -/

/-- R64: the bytes of the source's scenario decode to LDI R0,8, PRN R0 and HLT. -/
def Obligations.SourceScenarioBytesDecode : Prop :=
  decode [0x82, 0x00, 0x08, 0x47, 0x00, 0x01] = .ok (.ldi 0 8, [0x47, 0x00, 0x01]) ∧
  decode [0x47, 0x00, 0x01] = .ok (.prn 0, [0x01]) ∧
  decode [0x01] = .ok (.hlt, [])

/-- R63: the nine rows under the spec's map, each with its opcode, operands and length. Six of the opcode values are log
entry 3's (PRESUMED). -/
def Obligations.OpcodeMapRowsDecode : Prop :=
  (∀ a b rest, decode (0x82 :: a :: b :: rest) = .ok (.ldi a b, rest)) ∧
  (∀ a rest, decode (0x47 :: a :: rest) = .ok (.prn a, rest)) ∧
  (∀ a b rest, decode (0xA0 :: a :: b :: rest) = .ok (.add a b, rest)) ∧
  (∀ a b rest, decode (0xA2 :: a :: b :: rest) = .ok (.mul a b, rest)) ∧
  (∀ a rest, decode (0x45 :: a :: rest) = .ok (.push a, rest)) ∧
  (∀ a rest, decode (0x46 :: a :: rest) = .ok (.pop a, rest)) ∧
  (∀ a rest, decode (0x50 :: a :: rest) = .ok (.call a, rest)) ∧
  (∀ rest, decode (0x01 :: rest) = .ok (.hlt, rest)) ∧
  (∀ rest, decode (0x11 :: rest) = .ok (.ret, rest))

/-- R65: under every admissible opcode map, decoding an encoded instruction gives it back, with every operand at every
value and whatever bytes follow; and the spec's own map is admissible. -/
def Obligations.DecodeInvertsEncode : Prop :=
  defaultOpcodes.wf ∧
  ∀ (m : OpcodeMap), m.wf → ∀ (i : Instr) (rest : List Byte), decodeWith m (encodeWith m i ++ rest) = .ok (i, rest)

/-- The other direction: what decodes to an instruction is that instruction's encoding and the bytes after it. -/
def Obligations.DecodedBytesAreTheEncoding : Prop :=
  ∀ (m : OpcodeMap) (bytes : List Byte) (i : Instr) (rest : List Byte),
    decodeWith m bytes = .ok (i, rest) → bytes = encodeWith m i ++ rest

/-- R67: a byte is unrecognized exactly when it is in no row; there are 247 such bytes, 0x00 and 0xFF among them. Six of
the nine values in the rows are log entry 3's (PRESUMED). -/
def Obligations.UnrecognizedBytesAreTheRest : Prop :=
  (∀ op rest, decode (op :: rest) = .error (.unrecognized op) ↔
    op ∉ [0x01, 0x82, 0x47, 0xA0, 0xA2, 0x45, 0x46, 0x50, 0x11]) ∧
  ((List.range 256).filter fun n => defaultOpcodes.lookup (BitVec.ofNat 8 n) = none).length = 247 ∧
  defaultOpcodes.lookup 0x00 = none ∧ defaultOpcodes.lookup 0xFF = none

/-- R82: a decode looks at no byte beyond those its opcode declares: a reader that agrees on the instruction's own
bytes decodes to the same instruction, and one that agrees on an unrecognized opcode byte rejects it alike. -/
def Obligations.UndeclaredBytesAreNotRead : Prop :=
  ∀ (m : OpcodeMap) (f g : Nat → Option Byte),
    (∀ i, decodeFrom m f = .ok i → (∀ k, k < i.length → g k = f k) → decodeFrom m g = .ok i) ∧
    (∀ op, decodeFrom m f = .error (.unrecognized op) → g 0 = f 0 → decodeFrom m g = .error (.unrecognized op))

/-! ### The cycle -/

/-- R80: where the bytes at the PC are the encoding of an instruction, a cycle is that instruction's meaning and then
the trace observer; a step is such a cycle under the default parameters. The parameters as an argument (log entry 4),
the trace port's presence by default (log entry 5, which R191 leaves optional), the bytes of a record (log entry 6) and
no record where a fault record stands (log entry 17) are the model's choices; HALT_ON_UNRECOGNIZED false is R88's
default. -/
def Obligations.StepRunsTheDecodedInstruction : Prop :=
  (∀ (p : Params) (s : State) (i : Instr), p.opcodes.wf → s.running = true → s.pc.toNat + i.length ≤ 256 →
    (∀ k (hk : k < (encodeWith p.opcodes i).length), s.mem.read (s.pc.toNat + k) = (encodeWith p.opcodes i)[k]) →
    ∃ t, exec i s = .next t ∧
      cycle p s = .next
        (if p.trace = true ∧ t.fault = none then { t with trace := t.trace ++ [traceRecord s t] } else t)) ∧
  ∀ s, step s = cycle { opcodes := defaultOpcodes, haltOnUnrecognized := false, trace := true } s

/-- R81: the opcode is the byte at the PC; a fetch at a PC above 255 faults with that PC and does not wrap; and the only
such PC a run reaches is 256. -/
def Obligations.OpcodeFetchAbove255Faults : Prop :=
  (∀ s : State, s.pc.toNat ≤ 255 → s.fetchByte 0 = some (s.mem.read s.pc.toNat)) ∧
  (∀ (p : Params) (s : State), s.running = true → 255 < s.pc.toNat →
    cycle p s = .next (faultedAs s (.outOfBounds .fetchOpcode s.pc.toNat))) ∧
  ∀ (p : Params) (s : State), Reachable p s → 255 < s.pc.toNat → s.pc.toNat = 256

/-- R82: the operands a row declares are read in order, each only at an address up to 255, and no other byte is read:
memory that agrees on the opcode and the declared operands gives the same fetch. -/
def Obligations.OperandFetchReadsDeclaredBytes : Prop :=
  ∀ (p : Params) (s : State) (o : Opcode), p.opcodes.wf → s.running = true → s.pc.toNat ≤ 255 →
    s.mem.read s.pc.toNat = p.opcodes.byteOf o →
    (1 ≤ o.operandCount → 255 < s.pc.toNat + 1 →
      cycle p s = .next (faultedAs s (.outOfBounds .fetchOperand (s.pc.toNat + 1)))) ∧
    (o.operandCount = 2 → s.pc.toNat + 1 ≤ 255 → 255 < s.pc.toNat + 2 →
      cycle p s = .next (faultedAs s (.outOfBounds .fetchOperand (s.pc.toNat + 2)))) ∧
    (s.pc.toNat + o.operandCount ≤ 255 →
      ∃ i, s.fetch p.opcodes = .ok i ∧ i.opcode = o ∧
        i.operands = (List.range o.operandCount).map fun k => s.mem.read (s.pc.toNat + 1 + k)) ∧
    (∀ u : State, u.pc = s.pc → (∀ k, k ≤ o.operandCount → u.mem.read (s.pc.toNat + k) = s.mem.read (s.pc.toNat + k)) →
      u.fetch p.opcodes = s.fetch p.opcodes)

/-- R87: in the lenient setting an unrecognized opcode is reported at its address and skipped by one byte, and nothing
else changes but the trace. -/
def Obligations.UnrecognizedOpcodeIsReportedAndSkipped : Prop :=
  ∀ (p : Params) (s : State), p.haltOnUnrecognized = false → s.running = true → s.pc.toNat ≤ 255 →
    p.opcodes.lookup (s.mem.read s.pc.toNat) = none →
    ∃ t, cycle p s = .next t ∧ t.events = s.events ++ [.unrec s.pc] ∧ t.pc = s.pc + 1 ∧
      sameMemory s t ∧ sameRegs s t ∧ t.running = true ∧ t.fault = s.fault

/-- R88: the setting is false by default; in the strict setting the report is emitted and the core stops with the
opcode recorded and the PC unchanged. -/
def Obligations.StrictUnrecognizedOpcodeHalts : Prop :=
  defaultParams.haltOnUnrecognized = false ∧
  ∀ (p : Params) (s : State), p.haltOnUnrecognized = true → s.running = true → s.pc.toNat ≤ 255 →
    p.opcodes.lookup (s.mem.read s.pc.toNat) = none →
    ∃ t, cycle p s = .next t ∧ t.events = s.events ++ [.unrec s.pc] ∧ t.running = false ∧
      t.fault = some { cause := .unrecognizedInstruction (s.mem.read s.pc.toNat), pc := s.pc } ∧
      t.pc = s.pc ∧ sameMemory s t ∧ sameRegs s t ∧ t.trace = s.trace

/-- R85, R194: a stopped core keeps its whole state, however often it is stepped. That the step of a stopped core answers
that same state, and is no refusal, is the model's choice (log entry 2, DEDUCED). -/
def Obligations.StoppedCoreKeepsItsState : Prop :=
  ∀ (p : Params) (s : State), s.running = false → cycle p s = .next s ∧ ∀ n, runUpTo p n s = .next s

/-- R194: the inspect port shows every cell, the registers, the PC and the fault record. A core that a cycle stopped keeps
all of its session's state under every input but reset, and reset sets it running again. That the step port answers at
all on a stopped core, with the same state, is the model's choice (log entry 2, DEDUCED), and so are the closed load
ports' place in the session's phase (log entry 12, DEDUCED). -/
def Obligations.StopStateStaysVisibleAndIsLeftByResetOnly : Prop :=
  (∀ s : State, s.inspect.cells.length = 256 ∧ (∀ a, a < 256 → s.inspect.cells[a]? = some (s.mem.read a)) ∧
    (∀ q : Fin 8, s.inspect.regs[q] = s.reg q) ∧ s.inspect.pc = s.pc ∧ s.inspect.fault = s.fault) ∧
  (∀ (p : Params) (h h' : Session), h.input p .step = some h' → h'.phase = .started) ∧
  ∀ (p : Params) (h h' : Session) (x : HostInput), h.core.running = false → h.phase = .started →
    h.input p x = some h' → (x ≠ .reset → h' = h) ∧ (x = .reset → h'.core.running = true)

/-- No cycle of any core, from any state, is refused or stops the machine outside its state. Faults as next states (log
entry 1) and the step of a stopped core (log entry 2) are the model's choices, both DEDUCED. -/
def Obligations.EveryCycleAnswersANextState : Prop := ∀ (p : Params) (s : State), ∃ t, cycle p s = .next t

/-- Every cycle keeps the invariant: memory canonical, PC at most 256, running excludes a fault record, and a fault
record holds the PC and a cause and value that R181 to R183 and R88 allow. -/
def Obligations.CycleKeepsInvariant : Prop :=
  ∀ (p : Params) (s t : State), Inv p s → cycle p s = .next t → Inv p t

/-- Whatever program is loaded, every state its run reaches meets the invariant. -/
def Obligations.ReachableStatesMeetInvariant : Prop :=
  ∀ (p : Params) (s : State), Reachable p s → Inv p s

/-- From R184: a cycle that faults changes the running flag and the fault record only, and emits no event but the strict
setting's report; and no later cycle changes anything. That a cycle of the stopped core answers at all, with the same
state, is the model's choice (log entry 2, DEDUCED). -/
def Obligations.FaultsArePrecise : Prop :=
  ∀ (p : Params) (s t : State) (r : FaultRecord), s.running = true → s.fault = none → cycle p s = .next t →
    t.fault = some r →
    t.running = false ∧ r.pc = s.pc ∧ t.pc = s.pc ∧ sameMemory s t ∧ sameRegs s t ∧ t.trace = s.trace ∧
    ((∀ op, r.cause ≠ .unrecognizedInstruction op) → t.events = s.events) ∧
    (∀ op, r.cause = .unrecognizedInstruction op → t.events = s.events ++ [.unrec s.pc]) ∧
    cycle p t = .next t

/-- R186, R181, R182, R88: from a running state a cycle faults exactly when a check fails, and then with the first in
the order of R186. -/
def Obligations.FaultIsTheFirstFailingCheck : Prop :=
  ∀ (p : Params) (s t : State), s.running = true → s.fault = none → cycle p s = .next t →
    t.fault = (firstFault p s).map fun c => { cause := c, pc := s.pc }

/-- R29: the running flag is true at reset; a running core stops exactly by HLT or by a fault; a stopped one never runs
again by a cycle, and only the reset port sets the flag. -/
def Obligations.RunningFallsByHltOrFaultOnly : Prop :=
  State.reset.running = true ∧
  (∀ (p : Params) (s t : State), s.running = true → s.fault = none → cycle p s = .next t →
    (t.running = false ↔ (s.pc.toNat ≤ 255 ∧ s.mem.read s.pc.toNat = 0x01) ∨ t.fault ≠ none)) ∧
  (∀ (p : Params) (s t : State), s.running = false → cycle p s = .next t → t.running = false) ∧
  ∀ (p : Params) (h h' : Session), h.input p .reset = some h' → h'.core.running = true

/-- R190: a cycle appends at most one event: PRN's register value, or the report of the unrecognized opcode at the
PC. Earlier events stay. The stream is never read back: from a state that differs in it, the cycle appends the same
events and does the same to everything else. -/
def Obligations.EventStreamIsAppendedAndNeverReadBack : Prop :=
  (∀ (p : Params) (s t : State), cycle p s = .next t →
    t.events = s.events ∨
    (∃ opA, ∃ h : opA.toNat < 8, s.fetch p.opcodes = .ok (.prn opA) ∧
      t.events = s.events ++ [.out (s.reg ⟨opA.toNat, h⟩)]) ∨
    (s.pc.toNat ≤ 255 ∧ p.opcodes.lookup (s.mem.read s.pc.toNat) = none ∧ t.events = s.events ++ [.unrec s.pc])) ∧
  ∀ (p : Params) (s t : State) (before added : List Event), cycle p s = .next t → t.events = s.events ++ added →
    cycle p { s with events := before } = .next { t with events := before ++ added }

/-- R191: where the trace port is present, a cycle that does not fault adds one record, with the opcode's address, the
three bytes (none above 255) and the registers after the cycle; a faulting cycle, or a core without the port, adds
none. That the three bytes are memory before the cycle's own write is the model's choice (log entry 6, DEDUCED): R191
does not say when they are read. -/
def Obligations.TraceRecordsEveryCycleThatDoesNotFault : Prop :=
  ∀ (p : Params) (s t : State), s.running = true → s.fault = none → cycle p s = .next t →
    (p.trace = true → t.fault = none →
      ∃ r, t.trace = s.trace ++ [r] ∧ r.pc = s.pc ∧ r.regs = t.regs ∧
        r.bytes = [0, 1, 2].map fun k =>
          if s.pc.toNat + k ≤ 255 then some (s.mem.read (s.pc.toNat + k)) else none) ∧
    (p.trace = false ∨ t.fault ≠ none → t.trace = s.trace)

/-- R191: the trace observer does not affect execution: two cores that differ in having the trace port, and two states
that differ in the trace so far, go on alike in everything else. -/
def Obligations.TraceDoesNotAffectExecution : Prop :=
  ∀ (p q : Params) (s u t : State), q.opcodes = p.opcodes → q.haltOnUnrecognized = p.haltOnUnrecognized →
    s.fault = none → sameButTrace s u → cycle p s = .next t → ∃ v, cycle q u = .next v ∧ sameButTrace t v

/-- R85, R89: once a run has ended, a higher ceiling gives the same end. -/
def Obligations.EndedRunIgnoresTheCeiling : Prop :=
  ∀ (p : Params) (n m : Nat) (s t : State), n ≤ m → runUpTo p n s = .next t → t.ended → runUpTo p m s = .next t

/-- R30: the status table, and under the invariant every state has a status in it. -/
def Obligations.StatusIsRunningHaltedOrFaulted : Prop :=
  (∀ s : State, s.running = true → s.fault = none → s.status = some .running) ∧
  (∀ s : State, s.running = false → s.fault = none → s.status = some .halted) ∧
  (∀ (s : State) (r : FaultRecord), s.running = false → s.fault = some r → s.status = some .faulted) ∧
  ∀ (p : Params) (s : State), Inv p s → s.status ≠ none

/-! ### The instructions -/

/-- R86: HLT clears the running flag and leaves the PC at the byte after it; nothing else changes. -/
def Obligations.HltStopsAfterItsByte : Prop :=
  encode .hlt = [0x01] ∧
  ∀ s : State, ∃ t, exec .hlt s = .next t ∧ t.running = false ∧ t.pc = s.pc + 1 ∧ sameRegs s t ∧ sameMemory s t ∧
    t.fault = s.fault ∧ t.events = s.events ∧ t.trace = s.trace

/-- R100: LDI. -/
def Obligations.LdiLoadsTheImmediate : Prop :=
  (∀ opA opB, encode (.ldi opA opB) = [0x82, opA, opB]) ∧ operandFetchFaults 0x82 2 ∧
  (∀ (opA opB : Byte) (s : State), 8 ≤ opA.toNat →
    exec (.ldi opA opB) s = .next (faultedAs s (.invalidRegister opA))) ∧
  ∀ (opA opB : Byte) (s : State) (h : opA.toNat < 8), ∃ t, exec (.ldi opA opB) s = .next t ∧
    (∀ q, t.reg q = if q = ⟨opA.toNat, h⟩ then opB else s.reg q) ∧ t.pc = s.pc + 3 ∧
    sameMemory s t ∧ sameStatus s t ∧ t.events = s.events

/-- R101: PRN. -/
def Obligations.PrnEmitsTheRegister : Prop :=
  (∀ opA, encode (.prn opA) = [0x47, opA]) ∧ operandFetchFaults 0x47 1 ∧
  (∀ (opA : Byte) (s : State), 8 ≤ opA.toNat → exec (.prn opA) s = .next (faultedAs s (.invalidRegister opA))) ∧
  ∀ (opA : Byte) (s : State) (h : opA.toNat < 8), ∃ t, exec (.prn opA) s = .next t ∧
    t.events = s.events ++ [.out (s.reg ⟨opA.toNat, h⟩)] ∧ t.pc = s.pc + 2 ∧
    sameRegs s t ∧ sameMemory s t ∧ sameStatus s t

/-- R122: ADD. Both registers are read before the result is written. -/
def Obligations.AddWrapsModulo256 : Prop :=
  (∀ opA opB, encode (.add opA opB) = [0xA0, opA, opB]) ∧ operandFetchFaults 0xA0 2 ∧
  (∀ (opA opB : Byte) (s : State), 8 ≤ opA.toNat →
    exec (.add opA opB) s = .next (faultedAs s (.invalidRegister opA))) ∧
  (∀ (opA opB : Byte) (s : State), opA.toNat < 8 → 8 ≤ opB.toNat →
    exec (.add opA opB) s = .next (faultedAs s (.invalidRegister opB))) ∧
  ∀ (opA opB : Byte) (s : State) (ha : opA.toNat < 8) (hb : opB.toNat < 8), ∃ t, exec (.add opA opB) s = .next t ∧
    (t.reg ⟨opA.toNat, ha⟩).toNat = ((s.reg ⟨opA.toNat, ha⟩).toNat + (s.reg ⟨opB.toNat, hb⟩).toNat) % 256 ∧
    (∀ q, q ≠ ⟨opA.toNat, ha⟩ → t.reg q = s.reg q) ∧ t.pc = s.pc + 3 ∧
    sameMemory s t ∧ sameStatus s t ∧ t.events = s.events

/-- R123: MUL. -/
def Obligations.MulKeepsTheLowByte : Prop :=
  (∀ opA opB, encode (.mul opA opB) = [0xA2, opA, opB]) ∧ operandFetchFaults 0xA2 2 ∧
  (∀ (opA opB : Byte) (s : State), 8 ≤ opA.toNat →
    exec (.mul opA opB) s = .next (faultedAs s (.invalidRegister opA))) ∧
  (∀ (opA opB : Byte) (s : State), opA.toNat < 8 → 8 ≤ opB.toNat →
    exec (.mul opA opB) s = .next (faultedAs s (.invalidRegister opB))) ∧
  ∀ (opA opB : Byte) (s : State) (ha : opA.toNat < 8) (hb : opB.toNat < 8), ∃ t, exec (.mul opA opB) s = .next t ∧
    (t.reg ⟨opA.toNat, ha⟩).toNat = ((s.reg ⟨opA.toNat, ha⟩).toNat * (s.reg ⟨opB.toNat, hb⟩).toNat) % 256 ∧
    (∀ q, q ≠ ⟨opA.toNat, ha⟩ → t.reg q = s.reg q) ∧ t.pc = s.pc + 3 ∧
    sameMemory s t ∧ sameStatus s t ∧ t.events = s.events

/-- R140: PUSH. SP goes down by one and the byte at the new SP is the register, or the new SP itself for R7; every
other byte and register is as before. -/
def Obligations.PushStoresBelowTheStackTop : Prop :=
  (∀ opA, encode (.push opA) = [0x45, opA]) ∧ operandFetchFaults 0x45 1 ∧
  (∀ (opA : Byte) (s : State), 8 ≤ opA.toNat → exec (.push opA) s = .next (faultedAs s (.invalidRegister opA))) ∧
  (∀ (opA : Byte) (s : State), opA.toNat < 8 → s.sp = 0 →
    exec (.push opA) s = .next (faultedAs s (.outOfBounds .stackOverflow (-1)))) ∧
  ∀ (opA : Byte) (s : State) (h : opA.toNat < 8), s.sp ≠ 0 → ∃ t, exec (.push opA) s = .next t ∧
    (∀ q, t.reg q = if q = 7 then s.sp - 1 else s.reg q) ∧
    (∀ a, t.mem.read a =
      if a = (s.sp - 1).toNat then (if opA = 7 then s.sp - 1 else s.reg ⟨opA.toNat, h⟩) else s.mem.read a) ∧
    t.pc = s.pc + 2 ∧ sameStatus s t ∧ t.events = s.events

/-- R141: POP. The register takes the byte at SP and SP goes up by one; for R7 the increment applies to the byte
popped. The spec's underflow condition for R7 is on that byte. -/
def Obligations.PopLoadsTheStackTop : Prop :=
  (∀ opA, encode (.pop opA) = [0x46, opA]) ∧ operandFetchFaults 0x46 1 ∧
  (∀ (opA : Byte) (s : State), 8 ≤ opA.toNat → exec (.pop opA) s = .next (faultedAs s (.invalidRegister opA))) ∧
  (∀ (opA : Byte) (s : State), opA.toNat < 8 →
    (if opA = 7 then s.mem.read s.sp.toNat = 255 else s.sp = 255) →
    exec (.pop opA) s = .next (faultedAs s (.outOfBounds .stackUnderflow 256))) ∧
  (∀ (opA : Byte) (s : State), opA.toNat < 7 → s.sp ≠ 255 → ∃ t, exec (.pop opA) s = .next t ∧
    (∀ q, t.reg q = if q = 7 then s.sp + 1
      else if q.val = opA.toNat then s.mem.read s.sp.toNat else s.reg q) ∧
    t.pc = s.pc + 2 ∧ sameMemory s t ∧ sameStatus s t ∧ t.events = s.events) ∧
  ∀ s : State, s.mem.read s.sp.toNat ≠ 255 → ∃ t, exec (.pop 7) s = .next t ∧
    (∀ q, t.reg q = if q = 7 then s.mem.read s.sp.toNat + 1 else s.reg q) ∧
    t.pc = s.pc + 2 ∧ sameMemory s t ∧ sameStatus s t ∧ t.events = s.events

/-- R160: CALL. The address after the CALL goes to the byte below the stack top, and the PC is the register, or the new
SP for R7. -/
def Obligations.CallPushesTheReturnAddress : Prop :=
  (∀ opA, encode (.call opA) = [0x50, opA]) ∧ operandFetchFaults 0x50 1 ∧
  (∀ (opA : Byte) (s : State), 8 ≤ opA.toNat → exec (.call opA) s = .next (faultedAs s (.invalidRegister opA))) ∧
  (∀ (opA : Byte) (s : State), opA.toNat < 8 → s.sp = 0 →
    exec (.call opA) s = .next (faultedAs s (.outOfBounds .stackOverflow (-1)))) ∧
  (∀ (opA : Byte) (s : State), opA.toNat < 8 → s.sp ≠ 0 → 255 < s.pc.toNat + 2 →
    exec (.call opA) s = .next (faultedAs s (.outOfBounds .returnAddress (s.pc.toNat + 2)))) ∧
  ∀ (opA : Byte) (s : State) (h : opA.toNat < 8), s.sp ≠ 0 → s.pc.toNat + 2 ≤ 255 →
    ∃ t, exec (.call opA) s = .next t ∧
      t.pc.toNat = (if opA = 7 then s.sp - 1 else s.reg ⟨opA.toNat, h⟩).toNat ∧
      (∀ q, t.reg q = if q = 7 then s.sp - 1 else s.reg q) ∧
      (t.mem.read (s.sp - 1).toNat).toNat = s.pc.toNat + 2 ∧
      (∀ a, a ≠ (s.sp - 1).toNat → t.mem.read a = s.mem.read a) ∧
      sameStatus s t ∧ t.events = s.events

/-- R161: RET. The PC is the byte at SP and SP goes up by one. -/
def Obligations.RetPopsTheReturnAddress : Prop :=
  encode .ret = [0x11] ∧
  (∀ s : State, s.sp = 255 → exec .ret s = .next (faultedAs s (.outOfBounds .stackUnderflow 256))) ∧
  ∀ s : State, s.sp ≠ 255 → ∃ t, exec .ret s = .next t ∧
    t.pc.toNat = (s.mem.read s.sp.toNat).toNat ∧ (∀ q, t.reg q = if q = 7 then s.sp + 1 else s.reg q) ∧
    sameMemory s t ∧ sameStatus s t ∧ t.events = s.events

/-! ### Rules over several instructions -/

/-- R182: an instruction that names a register index of 8 or more raises InvalidRegister for the first such operand
(`Instr.regOperands` lists the operands R182 checks), and one whose register operands are all valid never does. -/
def Obligations.FirstInvalidRegisterIsReported : Prop :=
  (∀ (i : Instr) (s : State) (idx : Byte), i.firstInvalid = some idx →
    exec i s = .next (faultedAs s (.invalidRegister idx))) ∧
  ∀ (i : Instr) (s t : State) (r : FaultRecord) (idx : Byte), i.wf → s.fault = none → exec i s = .next t →
    t.fault = some r → r.cause ≠ .invalidRegister idx

/-- R84, R162: every instruction but CALL and RET, where it does not fault, leaves the PC after its own bytes. -/
def Obligations.OnlyCallAndRetRedirectThePc : Prop :=
  ∀ (i : Instr) (s t : State), (∀ opA, i ≠ .call opA) → i ≠ .ret → s.fault = none → exec i s = .next t →
    t.fault = none → t.pc = s.pc + BitVec.ofNat 9 (1 + i.operands.length)

/-- R40: only PUSH and CALL change memory, and each at most at the one byte below the stack top. -/
def Obligations.OnlyPushAndCallWriteMemory : Prop :=
  ∀ (i : Instr) (s t : State), exec i s = .next t →
    ((∀ opA, i ≠ .push opA) → (∀ opA, i ≠ .call opA) → sameMemory s t) ∧
    ∀ a, a ≠ (s.sp - 1).toNat → t.mem.read a = s.mem.read a

/-- R120, R121: the ALU validates dest, then src; it touches its destination only; and any tag but ADD and MUL fails
with UnsupportedOperation. The third tag (log entry 9, DESIGN CHOICE) and the indices before the tag (log entry 10,
DEDUCED) are the model's choices. -/
def Obligations.AluContract : Prop :=
  (∀ (tag : AluTag) (dest src : Byte) (s : State), 8 ≤ dest.toNat →
    aluApply tag dest src s = .error (.invalidRegister dest)) ∧
  (∀ (tag : AluTag) (dest src : Byte) (s : State), dest.toNat < 8 → 8 ≤ src.toNat →
    aluApply tag dest src s = .error (.invalidRegister src)) ∧
  (∀ (n : Nat) (dest src : Byte) (s : State), dest.toNat < 8 → src.toNat < 8 →
    aluApply (.other n) dest src s = .error (.unsupportedOperation (.other n))) ∧
  ∀ (tag : AluTag) (dest src : Byte) (s t : State), aluApply tag dest src s = .ok t →
    sameMemory s t ∧ t.pc = s.pc ∧ sameStatus s t ∧ t.events = s.events ∧
    ∀ q : Fin 8, q.val ≠ dest.toNat → t.reg q = s.reg q

/-- R124: read as signed bytes, ADD and MUL give the two's-complement sum and product truncated to 8 bits. -/
def Obligations.AluResultsReadSigned : Prop :=
  ∀ a b v : Byte, (aluValue .add a b = some v → v.toInt = (a.toInt + b.toInt).bmod 256) ∧
    (aluValue .mul a b = some v → v.toInt = (a.toInt * b.toInt).bmod 256)

/-- The source's PUSH and POP property as C2 restricts it: for two registers of R0..R6, or R7 twice, POP after PUSH
gives the pushed register's old value and the old SP. -/
def Obligations.PushThenPopRestores : Prop :=
  ∀ (r r' : Byte) (s : State) (h : r.toNat < 8) (h' : r'.toNat < 8), s.sp ≠ 0 → (r = 7 ↔ r' = 7) →
    ∃ t u, exec (.push r) s = .next t ∧ exec (.pop r') t = .next u ∧
      u.reg ⟨r'.toNat, h'⟩ = s.reg ⟨r.toNat, h⟩ ∧ u.sp = s.sp ∧ u.fault = s.fault

/-- The source's CALL and RET property: RET, in any state with the SP and the memory CALL left, returns to the PC after
the CALL and restores SP. -/
def Obligations.CallThenRetReturns : Prop :=
  ∀ (r : Byte) (s : State), r.toNat < 8 → s.sp ≠ 0 → s.pc.toNat + 2 ≤ 255 →
    ∃ t, exec (.call r) s = .next t ∧ t.fault = s.fault ∧
      ∀ u : State, u.sp = t.sp → u.mem = t.mem →
        ∃ v, exec .ret u = .next v ∧ v.fault = u.fault ∧ v.pc = s.pc + 2 ∧ v.sp = s.sp

/-- R142: from SP = n, exactly n consecutive PUSHes succeed and the next one is a stack overflow; for the reset value
0xF4 these are 244. -/
def Obligations.PushesUntilTheStackIsFull : Prop :=
  ∀ (r : Byte) (s : State), r.toNat < 8 → s.fault = none →
    (∀ n, n ≤ s.sp.toNat → ∃ t, execTimes (.push r) n s = .next t ∧ t.fault = none ∧ t.sp.toNat = s.sp.toNat - n) ∧
    ∃ t, execTimes (.push r) (s.sp.toNat + 1) s = .next t ∧
      ∃ pc, t.fault = some { cause := .outOfBounds .stackOverflow (-1), pc := pc }

/-- R52: the byte a PUSH wrote is what a later fetch at its address sees. -/
def Obligations.FetchSeesPushedBytes : Prop :=
  ∀ (r : Byte) (s t u : State) (h : r.toNat < 8), r ≠ 7 → s.sp ≠ 0 → exec (.push r) s = .next t → u.mem = t.mem →
    ∀ k, u.pc.toNat + k = (s.sp - 1).toNat → u.fetchByte k = some (s.reg ⟨r.toNat, h⟩)
end

