-- ==== Sys2Proof/Laws/Decode.lean ====
section
/-! SUPPORT. What the table lookup and the decoder can answer, said once. -/

namespace Sys2Proof

/-! ### Rows -/

theorem Opcode.mem_all (o : Opcode) : o ∈ Opcode.all := by cases o <;> decide

/-- An instruction has the operands its row declares. -/
@[simp] theorem Instr.operands_length (i : Instr) : i.operands.length = i.opcode.operandCount := by cases i <;> rfl

/-- The length of an instruction is that of its bytes. -/
@[simp] theorem encodeWith_length (m : OpcodeMap) (i : Instr) : (encodeWith m i).length = i.length := by
  simp [encodeWith, Instr.length, Opcode.length, Nat.add_comm]

theorem Opcode.operandCount_le_two (o : Opcode) : o.operandCount ≤ 2 := by cases o <;> decide

/-- An instruction has 1 to 3 bytes (R60). -/
theorem Instr.length_bounds (i : Instr) : 1 ≤ i.length ∧ i.length ≤ 3 := by
  have := i.opcode.operandCount_le_two
  simp only [Instr.length, Opcode.length]; omega

/-! ### Lookup -/

/-- A row is found by its opcode byte only (R66). -/
theorem OpcodeMap.byteOf_of_lookup (m : OpcodeMap) (op : Byte) (o : Opcode) (h : m.lookup op = some o) :
    m.byteOf o = op := by
  simpa using List.find?_some h

/-- A byte is in no row exactly when it is no row's opcode. -/
theorem OpcodeMap.lookup_eq_none (m : OpcodeMap) (op : Byte) : m.lookup op = none ↔ ∀ o, m.byteOf o ≠ op := by
  simp only [OpcodeMap.lookup, List.find?_eq_none, beq_iff_eq]
  exact ⟨fun h o => h o o.mem_all, fun h o _ => h o⟩

/-- HLT is found by its byte under every map: its row is the first. -/
theorem OpcodeMap.lookup_hlt (m : OpcodeMap) (op : Byte) : m.lookup op = some .hlt ↔ op = 0x01 := by
  constructor
  · intro h; exact (m.byteOf_of_lookup _ _ h).symm
  · rintro rfl; rfl

/-- Under an admissible map two rows with one opcode byte are one row (R65). -/
theorem OpcodeMap.byteOf_injective (m : OpcodeMap) (hm : m.wf) (o o' : Opcode) (h : m.byteOf o = m.byteOf o') :
    o = o' := by
  obtain ⟨a, b, c, d, e, f⟩ := m
  obtain ⟨hn, hr⟩ := hm
  simp only [OpcodeMap.values, reservedOpcodes, List.nodup_cons, List.mem_cons, List.not_mem_nil, or_false, not_or,
    forall_eq_or_imp, forall_eq] at hn hr
  cases o <;> cases o' <;> first | rfl | (exfalso; simp_all [OpcodeMap.byteOf])

/-- Under an admissible map every row is found by its opcode byte. -/
theorem OpcodeMap.lookup_byteOf (m : OpcodeMap) (hm : m.wf) (o : Opcode) : m.lookup (m.byteOf o) = some o := by
  cases h : m.lookup (m.byteOf o) with
  | none => exact absurd rfl ((m.lookup_eq_none _).mp h o)
  | some o' => rw [m.byteOf_injective hm _ _ (m.byteOf_of_lookup _ _ h)]

theorem defaultOpcodes_wf : defaultOpcodes.wf := by decide

/-! ### The decoder -/

variable (m : OpcodeMap) (f : Nat → Option Byte)

/-- What the decoder reads where it answers an instruction. -/
theorem decodeFrom_ok (i : Instr) (h : decodeFrom m f = .ok i) :
    ∃ op, f 0 = some op ∧ m.lookup op = some i.opcode ∧
      ∀ k (hk : k < i.operands.length), f (k + 1) = some i.operands[k] := by
  unfold decodeFrom at h
  split at h
  · simp at h
  · rename_i op hop
    split at h
    · simp at h
    · rename_i o ho
      refine ⟨op, hop, ?_⟩
      cases o <;> simp only [Opcode.handler] at h
      case hlt | ret => cases h; exact ⟨ho, by simp [Instr.operands]⟩
      case prn | push | pop | call =>
        split at h
        · simp at h
        · rename_i a ha
          cases h
          exact ⟨ho, by simpa [Instr.operands] using ha⟩
      case ldi | add | mul =>
        split at h
        · simp at h
        · rename_i a ha
          split at h
          · simp at h
          · rename_i b hb
            cases h
            refine ⟨ho, fun k hk => ?_⟩
            match k, hk with
            | 0, _ => exact ha
            | 1, _ => exact hb

/-- Where the reader has an instruction's bytes, the decoder answers it. -/
theorem decodeFrom_of_bytes (i : Instr) (op : Byte) (h0 : f 0 = some op) (hl : m.lookup op = some i.opcode)
    (hk : ∀ k (hk : k < i.operands.length), f (k + 1) = some i.operands[k]) : decodeFrom m f = .ok i := by
  unfold decodeFrom
  rw [h0]
  simp only [hl]
  cases i <;> simp only [Instr.opcode, Opcode.handler]
  case prn a | push a | pop a | call a =>
    have := hk 0 (by simp [Instr.operands])
    simp only [Instr.operands, Nat.zero_add, List.getElem_cons_zero] at this
    rw [this]
  case ldi a b | add a b | mul a b =>
    have h1 := hk 0 (by simp [Instr.operands])
    have h2 := hk 1 (by simp [Instr.operands])
    simp only [Instr.operands, Nat.zero_add, List.getElem_cons_zero, List.getElem_cons_succ, Nat.reduceAdd] at h1 h2
    rw [h1, h2]

/-- What the decoder has read where it rejects (R81, R82, R67). -/
theorem decodeFrom_error (r : Rejection) (h : decodeFrom m f = .error r) :
    (r = .noOpcode ∧ f 0 = none) ∨
    (∃ op, r = .unrecognized op ∧ f 0 = some op ∧ m.lookup op = none) ∨
    (∃ op o k, r = .missingOperand k ∧ f 0 = some op ∧ m.lookup op = some o ∧ 1 ≤ k ∧ k ≤ o.operandCount ∧
      f k = none ∧ ∀ j, j < k → f j ≠ none) := by
  unfold decodeFrom at h
  split at h
  · rename_i h0; cases h; exact .inl ⟨rfl, h0⟩
  · rename_i op hop
    split at h
    · rename_i hl; cases h; exact .inr (.inl ⟨op, rfl, hop, hl⟩)
    · rename_i o ho
      refine .inr (.inr ?_)
      split at h
      · simp at h
      · rename_i mk hh
        split at h
        · rename_i h1
          cases h
          refine ⟨op, o, 1, rfl, hop, ho, le_refl _, by simp [Opcode.operandCount, hh], h1, fun j hj => ?_⟩
          obtain rfl : j = 0 := by omega
          simp [hop]
        · simp at h
      · rename_i mk hh
        split at h
        · rename_i h1
          cases h
          refine ⟨op, o, 1, rfl, hop, ho, le_refl _, by simp [Opcode.operandCount, hh], h1, fun j hj => ?_⟩
          obtain rfl : j = 0 := by omega
          simp [hop]
        · rename_i a h1
          split at h
          · rename_i h2
            cases h
            refine ⟨op, o, 2, rfl, hop, ho, by omega, by simp [Opcode.operandCount, hh], h2, fun j hj => ?_⟩
            match j, hj with
            | 0, _ => simp [hop]
            | 1, _ => simp [h1]
          · simp at h

/-- No opcode byte. -/
theorem decodeFrom_noOpcode (h : f 0 = none) : decodeFrom m f = .error .noOpcode := by simp [decodeFrom, h]

/-- An opcode byte in no row, whatever follows (R67). -/
theorem decodeFrom_unrecognized (op : Byte) (h : f 0 = some op) (hl : m.lookup op = none) :
    decodeFrom m f = .error (.unrecognized op) := by simp [decodeFrom, h, hl]

/-- The first declared operand byte that is not there (R82). -/
theorem decodeFrom_missing (op : Byte) (o : Opcode) (k : Nat) (h : f 0 = some op) (hl : m.lookup op = some o)
    (hk : 1 ≤ k ∧ k ≤ o.operandCount) (hn : f k = none) (hj : ∀ j, j < k → f j ≠ none) :
    decodeFrom m f = .error (.missingOperand k) := by
  have h2 := o.operandCount_le_two
  simp only [decodeFrom, h, hl]
  have hc : o.operandCount = match o.handler with | .f0 _ => 0 | .f1 _ => 1 | .f2 _ => 2 := rfl
  split
  · rename_i hh; simp only [hh] at hc; omega
  · rename_i hh
    simp only [hh] at hc
    obtain rfl : k = 1 := by omega
    simp [hn]
  · rename_i hh
    simp only [hh] at hc
    obtain rfl | rfl : k = 1 ∨ k = 2 := by omega
    · simp [hn]
    · obtain ⟨a, ha⟩ := Option.ne_none_iff_exists'.mp (hj 1 (by omega))
      simp [ha, hn]

end Sys2Proof
end

