-- ==== Sys2Proof/Laws/State.lean ====
section
/-! SUPPORT. One lemma per field of State per update, and the reads through each update, so that no proof unfolds a record update. -/

namespace Sys2Proof.Machine

variable (s : State)

/-! ### State.halt -/

@[simp] theorem State.halt_mem : (s.halt).mem = s.mem := rfl
@[simp] theorem State.halt_regs : (s.halt).regs = s.regs := rfl
@[simp] theorem State.halt_pc : (s.halt).pc = s.pc := rfl
@[simp] theorem State.halt_running : (s.halt).running = false := rfl
@[simp] theorem State.halt_fault : (s.halt).fault = s.fault := rfl
@[simp] theorem State.halt_events : (s.halt).events = s.events := rfl
@[simp] theorem State.halt_trace : (s.halt).trace = s.trace := rfl
@[simp] theorem State.halt_reg (j : Fin Config.numRegs) : (s.halt).reg j = s.reg j := rfl
@[simp] theorem State.halt_sp : (s.halt).sp = s.sp := rfl
@[simp] theorem State.halt_load (a : Byte) : (s.halt).load a = s.load a := rfl
@[simp] theorem State.halt_memRead (a : Nat) : (s.halt).memRead a = s.memRead a := rfl

/-! ### State.store -/

@[simp] theorem State.store_mem (a v : Byte) : (s.store a v).mem = s.mem.write a.toNat v := rfl
@[simp] theorem State.store_regs (a v : Byte) : (s.store a v).regs = s.regs := rfl
@[simp] theorem State.store_pc (a v : Byte) : (s.store a v).pc = s.pc := rfl
@[simp] theorem State.store_running (a v : Byte) : (s.store a v).running = s.running := rfl
@[simp] theorem State.store_fault (a v : Byte) : (s.store a v).fault = s.fault := rfl
@[simp] theorem State.store_events (a v : Byte) : (s.store a v).events = s.events := rfl
@[simp] theorem State.store_trace (a v : Byte) : (s.store a v).trace = s.trace := rfl
@[simp] theorem State.store_reg (a v : Byte) (j : Fin Config.numRegs) : (s.store a v).reg j = s.reg j := rfl
@[simp] theorem State.store_sp (a v : Byte) : (s.store a v).sp = s.sp := rfl

/-! ### State.setReg -/

@[simp] theorem State.setReg_mem (i : Fin Config.numRegs) (v : Byte) : (s.setReg i v).mem = s.mem := rfl
@[simp] theorem State.setReg_regs (i : Fin Config.numRegs) (v : Byte) : (s.setReg i v).regs = s.regs.set i v := rfl
@[simp] theorem State.setReg_pc (i : Fin Config.numRegs) (v : Byte) : (s.setReg i v).pc = s.pc := rfl
@[simp] theorem State.setReg_running (i : Fin Config.numRegs) (v : Byte) : (s.setReg i v).running = s.running := rfl
@[simp] theorem State.setReg_fault (i : Fin Config.numRegs) (v : Byte) : (s.setReg i v).fault = s.fault := rfl
@[simp] theorem State.setReg_events (i : Fin Config.numRegs) (v : Byte) : (s.setReg i v).events = s.events := rfl
@[simp] theorem State.setReg_trace (i : Fin Config.numRegs) (v : Byte) : (s.setReg i v).trace = s.trace := rfl
@[simp] theorem State.setReg_load (i : Fin Config.numRegs) (v : Byte) (a : Byte) : (s.setReg i v).load a = s.load a := rfl
@[simp] theorem State.setReg_memRead (i : Fin Config.numRegs) (v : Byte) (a : Nat) : (s.setReg i v).memRead a = s.memRead a := rfl

/-! ### State.setSp -/

@[simp] theorem State.setSp_mem (v : Byte) : (s.setSp v).mem = s.mem := rfl
@[simp] theorem State.setSp_regs (v : Byte) : (s.setSp v).regs = s.regs.set Config.spIndex v := rfl
@[simp] theorem State.setSp_pc (v : Byte) : (s.setSp v).pc = s.pc := rfl
@[simp] theorem State.setSp_running (v : Byte) : (s.setSp v).running = s.running := rfl
@[simp] theorem State.setSp_fault (v : Byte) : (s.setSp v).fault = s.fault := rfl
@[simp] theorem State.setSp_events (v : Byte) : (s.setSp v).events = s.events := rfl
@[simp] theorem State.setSp_trace (v : Byte) : (s.setSp v).trace = s.trace := rfl
@[simp] theorem State.setSp_load (v : Byte) (a : Byte) : (s.setSp v).load a = s.load a := rfl
@[simp] theorem State.setSp_memRead (v : Byte) (a : Nat) : (s.setSp v).memRead a = s.memRead a := rfl

/-! ### State.setPc -/

@[simp] theorem State.setPc_mem (t : Pc) : (s.setPc t).mem = s.mem := rfl
@[simp] theorem State.setPc_regs (t : Pc) : (s.setPc t).regs = s.regs := rfl
@[simp] theorem State.setPc_pc (t : Pc) : (s.setPc t).pc = t := rfl
@[simp] theorem State.setPc_running (t : Pc) : (s.setPc t).running = s.running := rfl
@[simp] theorem State.setPc_fault (t : Pc) : (s.setPc t).fault = s.fault := rfl
@[simp] theorem State.setPc_events (t : Pc) : (s.setPc t).events = s.events := rfl
@[simp] theorem State.setPc_trace (t : Pc) : (s.setPc t).trace = s.trace := rfl
@[simp] theorem State.setPc_reg (t : Pc) (j : Fin Config.numRegs) : (s.setPc t).reg j = s.reg j := rfl
@[simp] theorem State.setPc_sp (t : Pc) : (s.setPc t).sp = s.sp := rfl
@[simp] theorem State.setPc_load (t : Pc) (a : Byte) : (s.setPc t).load a = s.load a := rfl
@[simp] theorem State.setPc_memRead (t : Pc) (a : Nat) : (s.setPc t).memRead a = s.memRead a := rfl

/-! ### State.advance -/

@[simp] theorem State.advance_mem (o : Opcode) : (s.advance o).mem = s.mem := rfl
@[simp] theorem State.advance_regs (o : Opcode) : (s.advance o).regs = s.regs := rfl
@[simp] theorem State.advance_pc (o : Opcode) : (s.advance o).pc = s.pc + BitVec.ofNat 9 o.length := rfl
@[simp] theorem State.advance_running (o : Opcode) : (s.advance o).running = s.running := rfl
@[simp] theorem State.advance_fault (o : Opcode) : (s.advance o).fault = s.fault := rfl
@[simp] theorem State.advance_events (o : Opcode) : (s.advance o).events = s.events := rfl
@[simp] theorem State.advance_trace (o : Opcode) : (s.advance o).trace = s.trace := rfl
@[simp] theorem State.advance_reg (o : Opcode) (j : Fin Config.numRegs) : (s.advance o).reg j = s.reg j := rfl
@[simp] theorem State.advance_sp (o : Opcode) : (s.advance o).sp = s.sp := rfl
@[simp] theorem State.advance_load (o : Opcode) (a : Byte) : (s.advance o).load a = s.load a := rfl
@[simp] theorem State.advance_memRead (o : Opcode) (a : Nat) : (s.advance o).memRead a = s.memRead a := rfl

/-! ### State.emit -/

@[simp] theorem State.emit_mem (e : Event) : (s.emit e).mem = s.mem := rfl
@[simp] theorem State.emit_regs (e : Event) : (s.emit e).regs = s.regs := rfl
@[simp] theorem State.emit_pc (e : Event) : (s.emit e).pc = s.pc := rfl
@[simp] theorem State.emit_running (e : Event) : (s.emit e).running = s.running := rfl
@[simp] theorem State.emit_fault (e : Event) : (s.emit e).fault = s.fault := rfl
@[simp] theorem State.emit_events (e : Event) : (s.emit e).events = s.events ++ [e] := rfl
@[simp] theorem State.emit_trace (e : Event) : (s.emit e).trace = s.trace := rfl
@[simp] theorem State.emit_reg (e : Event) (j : Fin Config.numRegs) : (s.emit e).reg j = s.reg j := rfl
@[simp] theorem State.emit_sp (e : Event) : (s.emit e).sp = s.sp := rfl
@[simp] theorem State.emit_load (e : Event) (a : Byte) : (s.emit e).load a = s.load a := rfl
@[simp] theorem State.emit_memRead (e : Event) (a : Nat) : (s.emit e).memRead a = s.memRead a := rfl

/-! ### State.raise -/

@[simp] theorem State.raise_mem (c : FaultCause) : (s.raise c).mem = s.mem := rfl
@[simp] theorem State.raise_regs (c : FaultCause) : (s.raise c).regs = s.regs := rfl
@[simp] theorem State.raise_pc (c : FaultCause) : (s.raise c).pc = s.pc := rfl
@[simp] theorem State.raise_running (c : FaultCause) : (s.raise c).running = false := rfl
@[simp] theorem State.raise_fault (c : FaultCause) : (s.raise c).fault = some { cause := c, pc := s.pc } := rfl
@[simp] theorem State.raise_events (c : FaultCause) : (s.raise c).events = s.events := rfl
@[simp] theorem State.raise_trace (c : FaultCause) : (s.raise c).trace = s.trace := rfl
@[simp] theorem State.raise_reg (c : FaultCause) (j : Fin Config.numRegs) : (s.raise c).reg j = s.reg j := rfl
@[simp] theorem State.raise_sp (c : FaultCause) : (s.raise c).sp = s.sp := rfl
@[simp] theorem State.raise_load (c : FaultCause) (a : Byte) : (s.raise c).load a = s.load a := rfl
@[simp] theorem State.raise_memRead (c : FaultCause) (a : Nat) : (s.raise c).memRead a = s.memRead a := rfl

/-! ### State.loadBytes -/

@[simp] theorem State.loadBytes_mem (bytes : List Byte) : (s.loadBytes bytes).mem = s.mem.writeBytes Config.loadBase bytes := rfl
@[simp] theorem State.loadBytes_regs (bytes : List Byte) : (s.loadBytes bytes).regs = s.regs := rfl
@[simp] theorem State.loadBytes_pc (bytes : List Byte) : (s.loadBytes bytes).pc = s.pc := rfl
@[simp] theorem State.loadBytes_running (bytes : List Byte) : (s.loadBytes bytes).running = s.running := rfl
@[simp] theorem State.loadBytes_fault (bytes : List Byte) : (s.loadBytes bytes).fault = s.fault := rfl
@[simp] theorem State.loadBytes_events (bytes : List Byte) : (s.loadBytes bytes).events = s.events := rfl
@[simp] theorem State.loadBytes_trace (bytes : List Byte) : (s.loadBytes bytes).trace = s.trace := rfl
@[simp] theorem State.loadBytes_reg (bytes : List Byte) (j : Fin Config.numRegs) : (s.loadBytes bytes).reg j = s.reg j := rfl
@[simp] theorem State.loadBytes_sp (bytes : List Byte) : (s.loadBytes bytes).sp = s.sp := rfl

/-! ### Registers through a register write -/

/-- A register write changes that register and no other (R21). -/
@[simp] theorem State.setReg_reg (i j : Fin Config.numRegs) (v : Byte) :
    (s.setReg i v).reg j = if j = i then v else s.reg j := by
  simp [State.reg, State.setReg, Vector.getElem_set, Fin.ext_iff, eq_comm]

/-- Writing SP writes R7 (R10). -/
@[simp] theorem State.setSp_reg (j : Fin Config.numRegs) (v : Byte) :
    (s.setSp v).reg j = if j = Config.spIndex then v else s.reg j := s.setReg_reg _ _ _

@[simp] theorem State.setSp_sp (v : Byte) : (s.setSp v).sp = v := by simp [State.sp]

/-- SP through a register write: R7 is SP (R10, R22). -/
@[simp] theorem State.setReg_sp (i : Fin Config.numRegs) (v : Byte) :
    (s.setReg i v).sp = if i = Config.spIndex then v else s.sp := by
  simp [State.sp, eq_comm]

/-- Two states are the same when their fields are, the registers read one by one. -/
theorem State.ext_reads (s t : State) (hm : s.mem = t.mem) (hr : ∀ j, s.reg j = t.reg j) (hp : s.pc = t.pc)
    (hu : s.running = t.running) (hf : s.fault = t.fault) (he : s.events = t.events) (ht : s.trace = t.trace) :
    s = t := by
  obtain ⟨m, r, p, u, f, e, tr⟩ := s
  obtain ⟨m', r', p', u', f', e', tr'⟩ := t
  have hregs : r = r' := Vector.ext fun i hi => hr ⟨i, hi⟩
  simp_all

/-! ### Reset (R210) -/

theorem State.reset_reg (j : Fin Config.numRegs) :
    State.reset.reg j = if j = Config.spIndex then Config.spReset else 0 := by
  revert j; decide

theorem State.reset_read (a : Nat) : State.reset.mem.read a = 0 := rfl

end Sys2Proof.Machine
end

