-- ==== Sys2Proof/Laws/Memory.lean ====
section
/-! SUPPORT. The laws of memory: a read after a write, the canonical form kept by every memory operation, and the bytes of a sequence of writes. -/

namespace Sys2Proof.Machine

/-! ### Read after write -/

theorem Memory.read_erase (m : Memory) (a b : Nat) :
    Memory.read (m.filter fun c => c.1 ≠ a) b = if b = a then 0 else m.read b := by
  induction m with
  | nil => simp [Memory.read]
  | cons c rest ih =>
    obtain ⟨k, w⟩ := c
    by_cases hk : k = a
    · subst hk
      rw [List.filter_cons_of_neg (by simp), ih]
      by_cases hb : b = k <;> simp [Memory.read, hb]
    · rw [List.filter_cons_of_pos (by simpa using hk)]
      simp only [Memory.read, ih]
      by_cases hb : b = k
      · subst hb; simp [hk]
      · simp [hb]

theorem Memory.read_insert (m : Memory) (a b : Nat) (v : Byte) (h : ∀ c ∈ m, c.1 ≠ a) :
    Memory.read (Memory.insert a v m) b = if b = a then v else m.read b := by
  induction m with
  | nil => simp [Memory.insert, Memory.read]
  | cons c rest ih =>
    obtain ⟨k, w⟩ := c
    have hk : k ≠ a := h _ List.mem_cons_self
    have ih := ih fun c hc => h c (List.mem_cons_of_mem _ hc)
    unfold Memory.insert
    split
    · simp [Memory.read]
    · simp only [Memory.read, ih]
      by_cases hb : b = k
      · subst hb; simp [hk]
      · simp [hb]

/-- A write sets its cell and leaves every other cell alone (R42, R47), whatever the list. -/
@[simp] theorem Memory.read_write (m : Memory) (a b : Nat) (v : Byte) :
    (m.write a v).read b = if b = a then v else m.read b := by
  unfold Memory.write
  split
  · rename_i hv; subst hv; exact m.read_erase a b
  · rw [Memory.read_insert _ _ _ _ (fun c hc => by simpa using (List.mem_filter.mp hc).2), Memory.read_erase]
    by_cases hb : b = a <;> simp [hb]

/-! ### The canonical form -/

theorem Memory.mem_insert (m : Memory) (a : Nat) (v : Byte) (c : Host.Cell) :
    c ∈ Memory.insert a v m ↔ c = (a, v) ∨ c ∈ m := by
  induction m with
  | nil => simp [Memory.insert]
  | cons d rest ih =>
    unfold Memory.insert
    split
    · simp
    · simp only [List.mem_cons, ih]; tauto

theorem Memory.insert_pairwise (m : Memory) (a : Nat) (v : Byte) (h : ∀ c ∈ m, c.1 ≠ a)
    (hm : m.Pairwise fun x y => x.1 < y.1) : (Memory.insert a v m).Pairwise fun x y => x.1 < y.1 := by
  induction m with
  | nil => simp [Memory.insert]
  | cons d rest ih =>
    have hd := h d List.mem_cons_self
    have ih := ih (fun c hc => h c (List.mem_cons_of_mem _ hc)) hm.of_cons
    unfold Memory.insert
    split
    · rename_i hlt
      refine List.pairwise_cons.mpr ⟨fun c hc => ?_, hm⟩
      rcases List.mem_cons.mp hc with rfl | hc
      · exact hlt
      · exact hlt.trans ((List.pairwise_cons.mp hm).1 c hc)
    · refine List.pairwise_cons.mpr ⟨fun c hc => ?_, ih⟩
      rcases (Memory.mem_insert ..).mp hc with rfl | hc
      · simp only at *; omega
      · exact (List.pairwise_cons.mp hm).1 c hc

/-- A write inside the address space keeps the canonical form. -/
theorem Memory.wf_write (m : Memory) (a : Nat) (v : Byte) (ha : a < Config.memSize) (h : m.wf) : (m.write a v).wf := by
  obtain ⟨hp, hc⟩ := h
  have hp' := hp.filter fun c => decide (c.1 ≠ a)
  have hc' : ∀ c ∈ m.filter (fun c => c.1 ≠ a), c.1 < Config.memSize ∧ c.2 ≠ 0 :=
    fun c hm => hc c (List.mem_of_mem_filter hm)
  unfold Memory.write
  split
  · exact ⟨hp', hc'⟩
  · rename_i hv
    refine ⟨Memory.insert_pairwise _ _ _ (fun c hm => by simpa using (List.mem_filter.mp hm).2) hp', fun c hm => ?_⟩
    rcases (Memory.mem_insert ..).mp hm with rfl | hm
    · exact ⟨ha, hv⟩
    · exact hc' c hm

/-- Memory is canonical at reset (R40). -/
theorem Memory.wf_reset : State.reset.mem.wf := ⟨List.Pairwise.nil, by simp [State.reset]⟩

/-- A store keeps the canonical form: its address is a byte. -/
theorem State.wf_store (s : State) (a v : Byte) (h : s.mem.wf) : (s.store a v).mem.wf :=
  s.mem.wf_write _ _ a.isLt h

/-! ### Equal contents are equal lists -/

theorem Memory.read_of_lt (m : Memory) (a : Nat) (h : ∀ c ∈ m, a < c.1) : m.read a = 0 := by
  induction m with
  | nil => rfl
  | cons c rest ih =>
    have hc := h c List.mem_cons_self
    have := ih fun d hd => h d (List.mem_cons_of_mem _ hd)
    simp [Memory.read, this]
    omega

/-- Canonical memories with the same contents are the same list. -/
theorem Memory.ext_read (m n : Memory) (hm : m.wf) (hn : n.wf) (h : ∀ a, m.read a = n.read a) : m = n := by
  induction m generalizing n with
  | nil =>
    cases n with
    | nil => rfl
    | cons d n =>
      obtain ⟨k, w⟩ := d
      have := h k
      exact absurd this.symm (by simpa [Memory.read] using (hn.2 _ List.mem_cons_self).2)
  | cons c m ih =>
    obtain ⟨j, v⟩ := c
    have hv : v ≠ 0 := (hm.2 _ List.mem_cons_self).2
    cases n with
    | nil => exact absurd (h j) (by simpa [Memory.read] using hv)
    | cons d n =>
      obtain ⟨k, w⟩ := d
      have hw : w ≠ 0 := (hn.2 _ List.mem_cons_self).2
      have hmj := (List.pairwise_cons.mp hm.1).1
      have hnk := (List.pairwise_cons.mp hn.1).1
      have hjk : j = k := by
        rcases Nat.lt_trichotomy j k with hlt | heq | hgt
        · have hz := Memory.read_of_lt ((k, w) :: n) j (by
            intro d hd
            rcases List.mem_cons.mp hd with rfl | hd
            · exact hlt
            · exact hlt.trans (hnk d hd))
          exact absurd ((h j).trans hz) (by simpa [Memory.read] using hv)
        · exact heq
        · have hz := Memory.read_of_lt ((j, v) :: m) k (by
            intro d hd
            rcases List.mem_cons.mp hd with rfl | hd
            · exact hgt
            · exact hgt.trans (hmj d hd))
          exact absurd ((h k).symm.trans hz) (by simpa [Memory.read] using hw)
      subst hjk
      have hvw : v = w := by simpa [Memory.read] using h j
      subst hvw
      have := ih n ⟨hm.1.of_cons, fun c hc => hm.2 c (List.mem_cons_of_mem _ hc)⟩
        ⟨hn.1.of_cons, fun c hc => hn.2 c (List.mem_cons_of_mem _ hc)⟩ fun a => by
          by_cases ha : a = j
          · subst ha
            rw [Memory.read_of_lt m a hmj, Memory.read_of_lt n a hnk]
          · simpa [Memory.read, ha] using h a
      rw [this]

/-! ### A sequence of bytes -/

/-- Bytes written in order from an address lie there in order, and every other cell is as before (R211). -/
theorem Memory.read_writeBytes (m : Memory) (a : Nat) (bytes : List Byte) (b : Nat) :
    (m.writeBytes a bytes).read b =
      if h : a ≤ b ∧ b - a < bytes.length then bytes[b - a]'h.2 else m.read b := by
  induction bytes generalizing m a with
  | nil => simp [Memory.writeBytes]
  | cons v vs ih =>
    rw [Memory.writeBytes, ih, Memory.read_write]
    rcases Nat.lt_trichotomy b a with hlt | rfl | hgt
    · simp [show ¬ a ≤ b by omega, show ¬ a + 1 ≤ b by omega, show b ≠ a by omega]
    · simp
    · obtain ⟨k, rfl⟩ : ∃ k, b = a + 1 + k := ⟨b - (a + 1), by omega⟩
      simp [show a + 1 + k - a = k + 1 by omega, show a ≤ a + 1 + k by omega, show a + 1 + k ≠ a by omega]

/-- Bytes written inside the address space keep the canonical form. -/
theorem Memory.wf_writeBytes (m : Memory) (a : Nat) (bytes : List Byte) (ha : a + bytes.length ≤ Config.memSize)
    (h : m.wf) : (m.writeBytes a bytes).wf := by
  induction bytes generalizing m a with
  | nil => exact h
  | cons v vs ih =>
    simp only [List.length_cons] at ha
    exact ih _ _ (by omega) (m.wf_write _ _ (by omega) h)

end Sys2Proof.Machine
end

