-- ==== Sys2Proof/Laws/Ops.lean ====
section
/-! SUPPORT. What each shared operation can answer, said once. -/

namespace Sys2Proof.Machine

/-! ### Operands -/

/-- A register operand names the register of its index, which is below 8 (R24). -/
theorem regOperand_ok (idx : Byte) (r : Fin Config.numRegs) :
    regOperand idx = .ok r ↔ ∃ h : idx.toNat < 8, r = ⟨idx.toNat, h⟩ := by
  unfold regOperand
  split
  · rename_i h; simp only [Except.ok.injEq]; exact ⟨fun e => ⟨h, e.symm⟩, fun ⟨_, e⟩ => e.symm⟩
  · rename_i h; simp only [reduceCtorEq, false_iff]; rintro ⟨h', _⟩; exact h h'

/-- A register operand fails for an index of 8 or more only, with InvalidRegister (R182). -/
theorem regOperand_error (idx : Byte) (c : FaultCause) :
    regOperand idx = .error c ↔ 8 ≤ idx.toNat ∧ c = .invalidRegister idx := by
  unfold regOperand
  split
  · rename_i h; simp only [validIndex, Config.numRegs] at h; simp; omega
  · rename_i h; simp only [validIndex, Config.numRegs] at h; simp [eq_comm]; omega

theorem regOperand_valid (idx : Byte) (h : idx.toNat < 8) : regOperand idx = .ok ⟨idx.toNat, h⟩ :=
  (regOperand_ok ..).mpr ⟨h, rfl⟩

theorem regOperand_invalid (idx : Byte) (h : 8 ≤ idx.toNat) : regOperand idx = .error (.invalidRegister idx) :=
  (regOperand_error ..).mpr ⟨h, rfl⟩

/-- The operand byte 7 is the one that names SP (R22). -/
theorem operand_eq_sp_iff (idx : Byte) (h : idx.toNat < 8) :
    (⟨idx.toNat, h⟩ : Fin Config.numRegs) = Config.spIndex ↔ idx = 7 := by
  simp [Fin.ext_iff, Config.spIndex, ← BitVec.toNat_inj]

/-- The return address where it fits in a byte (R160). -/
theorem State.returnAddress_ok (s : State) (v : Byte) :
    s.returnAddress = .ok v ↔ s.pc.toNat + 2 ≤ 255 ∧ v = BitVec.ofNat 8 (s.pc.toNat + 2) := by
  have : Opcode.call.length = 2 := rfl
  unfold State.returnAddress
  split <;> simp [eq_comm, this] <;> omega

theorem State.returnAddress_error (s : State) (c : FaultCause) :
    s.returnAddress = .error c ↔ 255 < s.pc.toNat + 2 ∧ c = .outOfBounds .returnAddress (s.pc.toNat + 2) := by
  have : Opcode.call.length = 2 := rfl
  unfold State.returnAddress
  split <;> simp [eq_comm, this] <;> omega

/-! ### The stack pointer -/

theorem byte_sub_one (b : Byte) (h : b ≠ 0) : (b - 1).toNat = b.toNat - 1 := by
  have : b.toNat ≠ 0 := fun e => h (by simpa [← BitVec.toNat_inj] using e)
  bv_omega

theorem byte_add_one (b : Byte) (h : b ≠ 255) : (b + 1).toNat = b.toNat + 1 := by
  have : b.toNat ≠ 255 := fun e => h (by simpa [← BitVec.toNat_inj] using e)
  bv_omega

/-- A push finds room exactly where SP is not 0, and then the new SP is one lower (R142, R143). -/
theorem State.spDown_eq (s : State) :
    s.spDown = if s.sp = 0 then .error (.outOfBounds .stackOverflow (-1)) else .ok (s.sp - 1) := by
  unfold State.spDown checkSp
  have hlt := s.sp.isLt
  split
  · rename_i h
    have : s.sp = 0 := by simpa [← BitVec.toNat_inj] using h
    simp [this]
  · rename_i h
    have : s.sp ≠ 0 := by rintro h0; simp [h0] at h
    rw [if_neg (by omega), if_neg this]
    simp only [Except.ok.injEq]
    rw [← BitVec.toNat_inj, byte_sub_one _ this]
    simp only [BitVec.toNat_ofInt]
    omega

/-- A pop succeeds exactly where SP is not 255, and then the new SP is one higher (R142, R143). -/
theorem State.spUp_eq (s : State) :
    s.spUp = if s.sp = 255 then .error (.outOfBounds .stackUnderflow 256) else .ok (s.sp + 1) := by
  unfold State.spUp checkSp
  have hlt := s.sp.isLt
  rw [if_neg (by omega)]
  split
  · rename_i h
    have : s.sp = 255 := by rw [← BitVec.toNat_inj]; simp; omega
    simp [this]
  · rename_i h
    have : s.sp ≠ 255 := by rintro h0; simp [h0] at h
    rw [if_neg this]
    simp only [Except.ok.injEq]
    rw [← BitVec.toNat_inj, byte_add_one _ this]
    simp only [BitVec.toNat_ofInt]
    omega

theorem State.spDown_full (s : State) (h : s.sp = 0) : s.spDown = .error (.outOfBounds .stackOverflow (-1)) := by
  rw [State.spDown_eq, if_pos h]

theorem State.spDown_room (s : State) (h : s.sp ≠ 0) : s.spDown = .ok (s.sp - 1) := by
  rw [State.spDown_eq, if_neg h]

theorem State.spUp_full (s : State) (h : s.sp = 255) : s.spUp = .error (.outOfBounds .stackUnderflow 256) := by
  rw [State.spUp_eq, if_pos h]

theorem State.spUp_room (s : State) (h : s.sp ≠ 255) : s.spUp = .ok (s.sp + 1) := by
  rw [State.spUp_eq, if_neg h]

/-! ### Taking a fault -/

/-- Taking a fault leaves the state R184 describes. -/
theorem State.raise_eq (s : State) (c : FaultCause) : s.raise c = faultedAs s c := rfl

/-- An instruction commits as a whole or not at all (R83). -/
theorem State.commit_next (s t : State) (e : Except FaultCause State) :
    s.commit e = .next t ↔ e = .ok t ∨ ∃ c, e = .error c ∧ t = faultedAs s c := by
  cases e <;> simp [State.commit, State.raise_eq, eq_comm]

/-! ### Reads -/

/-- A read is answered exactly inside the address space (R41). -/
theorem State.memRead_eq (s : State) (a : Nat) : s.memRead a = if a ≤ 255 then some (s.mem.read a) else none := by
  simp only [State.memRead, Config.memSize]
  by_cases h : a ≤ 255
  · rw [if_pos h, if_pos (by omega)]
  · rw [if_neg h, if_neg (by omega)]

theorem State.fetchByte_eq (s : State) (k : Nat) :
    s.fetchByte k = if s.pc.toNat + k ≤ 255 then some (s.mem.read (s.pc.toNat + k)) else none := s.memRead_eq _

end Sys2Proof.Machine
end

