-- ==== Sys2Proof/Laws/Exec.lean ====
section
/-! SUPPORT. What an instruction can do, said once: every meaning commits an effect, and an effect either gives a new state of a known form or a fault of a known cause. -/

namespace Sys2Proof.Machine

/-- The effect each meaning commits. -/
def effect (i : Instr) (s : State) : Except FaultCause State :=
  match i with
  | .hlt => .ok (s.halt.advance .hlt)
  | .ldi opA opB => ldiEffect opA opB s
  | .prn opA => prnEffect opA s
  | .add opA opB => aluEffect .add .add opA opB s
  | .mul opA opB => aluEffect .mul .mul opA opB s
  | .push opA => pushEffect opA s
  | .pop opA => popEffect opA s
  | .call opA => callEffect opA s
  | .ret => retEffect s

/-- Executing an instruction is committing its effect (R83). -/
theorem exec_eq_commit (i : Instr) (s : State) : exec i s = s.commit (effect i s) := by cases i <;> rfl

/-- Executing answers the effect's state, or the state of the effect's fault, and nothing else. -/
theorem exec_next (i : Instr) (s t : State) :
    exec i s = .next t ↔ effect i s = .ok t ∨ ∃ c, effect i s = .error c ∧ t = faultedAs s c := by
  rw [exec_eq_commit, State.commit_next]

theorem exec_of_ok (i : Instr) (s t : State) (h : effect i s = .ok t) : exec i s = .next t :=
  (exec_next ..).mpr (.inl h)

theorem exec_of_error (i : Instr) (s : State) (c : FaultCause) (h : effect i s = .error c) :
    exec i s = .next (faultedAs s c) := (exec_next ..).mpr (.inr ⟨c, h, rfl⟩)

/-! ### Each effect where it gives a state -/

theorem ldiEffect_ok (opA opB : Byte) (s t : State) :
    ldiEffect opA opB s = .ok t ↔ ∃ h : opA.toNat < 8, t = (s.setReg ⟨opA.toNat, h⟩ opB).advance .ldi := by
  unfold ldiEffect
  rcases Nat.lt_or_ge opA.toNat 8 with h | h
  · simp [regOperand_valid _ h, h, eq_comm]
  · simp [regOperand_invalid _ h, Nat.not_lt.mpr h]

theorem prnEffect_ok (opA : Byte) (s t : State) :
    prnEffect opA s = .ok t ↔
      ∃ h : opA.toNat < 8, t = (s.emit (.out (s.reg ⟨opA.toNat, h⟩))).advance .prn := by
  unfold prnEffect
  rcases Nat.lt_or_ge opA.toNat 8 with h | h
  · simp [regOperand_valid _ h, h, eq_comm]
  · simp [regOperand_invalid _ h, Nat.not_lt.mpr h]

theorem aluApply_ok (tag : AluTag) (dest src : Byte) (s t : State) :
    aluApply tag dest src s = .ok t ↔
      ∃ (hd : dest.toNat < 8) (hs : src.toNat < 8) (v : Byte),
        aluValue tag (s.reg ⟨dest.toNat, hd⟩) (s.reg ⟨src.toNat, hs⟩) = some v ∧ t = s.setReg ⟨dest.toNat, hd⟩ v := by
  unfold aluApply
  rcases Nat.lt_or_ge dest.toNat 8 with h | h
  · rcases Nat.lt_or_ge src.toNat 8 with h' | h'
    · simp only [regOperand_valid _ h, regOperand_valid _ h', h, h', exists_true_left]
      cases aluValue tag (s.reg ⟨dest.toNat, h⟩) (s.reg ⟨src.toNat, h'⟩) <;> simp [eq_comm]
    · simp [regOperand_valid _ h, regOperand_invalid _ h', Nat.not_lt.mpr h']
  · simp [regOperand_invalid _ h, Nat.not_lt.mpr h]

theorem aluEffect_ok (tag : AluTag) (o : Opcode) (opA opB : Byte) (s t : State) :
    aluEffect tag o opA opB s = .ok t ↔ ∃ u, aluApply tag opA opB s = .ok u ∧ t = u.advance o := by
  unfold aluEffect
  cases aluApply tag opA opB s <;> simp [eq_comm]

theorem pushEffect_ok (opA : Byte) (s t : State) :
    pushEffect opA s = .ok t ↔ ∃ h : opA.toNat < 8, s.sp ≠ 0 ∧
      t = (((s.setSp (s.sp - 1)).store (s.sp - 1) ((s.setSp (s.sp - 1)).reg ⟨opA.toNat, h⟩)).advance .push) := by
  unfold pushEffect
  rcases Nat.lt_or_ge opA.toNat 8 with h | h
  · by_cases h0 : s.sp = 0
    · simp [regOperand_valid _ h, State.spDown_eq, h0]
    · simp only [regOperand_valid _ h, State.spDown_eq, h0, if_false, Except.ok.injEq, h, exists_true_left, ne_eq,
        not_false_eq_true, true_and]
      exact eq_comm
  · simp [regOperand_invalid _ h, Nat.not_lt.mpr h]

theorem popEffect_ok (opA : Byte) (s t : State) :
    popEffect opA s = .ok t ↔ ∃ h : opA.toNat < 8, (s.setReg ⟨opA.toNat, h⟩ (s.load s.sp)).sp ≠ 255 ∧
      t = ((s.setReg ⟨opA.toNat, h⟩ (s.load s.sp)).setSp
        ((s.setReg ⟨opA.toNat, h⟩ (s.load s.sp)).sp + 1)).advance .pop := by
  unfold popEffect
  rcases Nat.lt_or_ge opA.toNat 8 with h | h
  · simp only [regOperand_valid _ h, h, exists_true_left]
    generalize s.setReg ⟨opA.toNat, h⟩ (s.load s.sp) = u
    by_cases h0 : u.sp = 255
    · simp [State.spUp_full _ h0, h0]
    · simp only [State.spUp_room _ h0, Except.ok.injEq, ne_eq, h0, not_false_eq_true, true_and]; exact eq_comm
  · simp [regOperand_invalid _ h, Nat.not_lt.mpr h]

theorem callEffect_ok (opA : Byte) (s t : State) :
    callEffect opA s = .ok t ↔ ∃ h : opA.toNat < 8, s.sp ≠ 0 ∧ s.pc.toNat + 2 ≤ 255 ∧
      t = ((s.setSp (s.sp - 1)).store (s.sp - 1) (BitVec.ofNat 8 (s.pc.toNat + 2))).setPc
        (((s.setSp (s.sp - 1)).reg ⟨opA.toNat, h⟩).setWidth 9) := by
  unfold callEffect
  rcases Nat.lt_or_ge opA.toNat 8 with h | h
  · by_cases h0 : s.sp = 0
    · simp [regOperand_valid _ h, State.spDown_eq, h0]
    · simp only [regOperand_valid _ h, State.spDown_eq, h0, if_false, h, exists_true_left, ne_eq,
        not_false_eq_true, true_and]
      rcases Nat.lt_or_ge 255 (s.pc.toNat + 2) with h2 | h2
      · rw [(s.returnAddress_error _).mpr ⟨h2, rfl⟩]
        simp [Nat.not_le.mpr h2]
      · rw [(s.returnAddress_ok _).mpr ⟨h2, rfl⟩]
        simp only [Except.ok.injEq, h2, true_and]
        exact eq_comm
  · simp [regOperand_invalid _ h, Nat.not_lt.mpr h]

theorem retEffect_ok (s t : State) :
    retEffect s = .ok t ↔ s.sp ≠ 255 ∧ t = (s.setSp (s.sp + 1)).setPc ((s.load s.sp).setWidth 9) := by
  unfold retEffect
  by_cases h0 : s.sp = 255
  · simp [State.spUp_full _ h0, h0]
  · simp only [State.spUp_room _ h0, Except.ok.injEq, ne_eq, h0, not_false_eq_true, true_and]; exact eq_comm

/-! ### Each effect where it faults -/

theorem ldiEffect_error (opA opB : Byte) (s : State) (c : FaultCause) :
    ldiEffect opA opB s = .error c ↔ 8 ≤ opA.toNat ∧ c = .invalidRegister opA := by
  unfold ldiEffect
  rcases Nat.lt_or_ge opA.toNat 8 with h | h
  · simp [regOperand_valid _ h, Nat.not_le.mpr h]
  · simp [regOperand_invalid _ h, h, eq_comm]

theorem prnEffect_error (opA : Byte) (s : State) (c : FaultCause) :
    prnEffect opA s = .error c ↔ 8 ≤ opA.toNat ∧ c = .invalidRegister opA := by
  unfold prnEffect
  rcases Nat.lt_or_ge opA.toNat 8 with h | h
  · simp [regOperand_valid _ h, Nat.not_le.mpr h]
  · simp [regOperand_invalid _ h, h, eq_comm]

/-- The ALU's faults, in the order of its checks (R120, R121, R186). -/
theorem aluApply_error (tag : AluTag) (dest src : Byte) (s : State) (c : FaultCause) :
    aluApply tag dest src s = .error c ↔
      (8 ≤ dest.toNat ∧ c = .invalidRegister dest) ∨
      (dest.toNat < 8 ∧ 8 ≤ src.toNat ∧ c = .invalidRegister src) ∨
      (dest.toNat < 8 ∧ src.toNat < 8 ∧ (∃ n, tag = .other n) ∧ c = .unsupportedOperation tag) := by
  unfold aluApply
  rcases Nat.lt_or_ge dest.toNat 8 with h | h
  · rcases Nat.lt_or_ge src.toNat 8 with h' | h'
    · simp only [regOperand_valid _ h, regOperand_valid _ h']
      cases tag <;> simp [aluValue, h, h', Nat.not_le.mpr h, Nat.not_le.mpr h', eq_comm]
    · simp [regOperand_valid _ h, regOperand_invalid _ h', h, h', Nat.not_le.mpr h, Nat.not_lt.mpr h', eq_comm]
  · simp [regOperand_invalid _ h, h, Nat.not_lt.mpr h, eq_comm]

theorem aluEffect_error (tag : AluTag) (o : Opcode) (opA opB : Byte) (s : State) (c : FaultCause) :
    aluEffect tag o opA opB s = .error c ↔ aluApply tag opA opB s = .error c := by
  unfold aluEffect
  cases aluApply tag opA opB s <;> simp

theorem pushEffect_error (opA : Byte) (s : State) (c : FaultCause) :
    pushEffect opA s = .error c ↔
      (8 ≤ opA.toNat ∧ c = .invalidRegister opA) ∨
      (opA.toNat < 8 ∧ s.sp = 0 ∧ c = .outOfBounds .stackOverflow (-1)) := by
  unfold pushEffect
  rcases Nat.lt_or_ge opA.toNat 8 with h | h
  · by_cases h0 : s.sp = 0
    · simp only [regOperand_valid _ h, State.spDown_full _ h0, Except.error.injEq, h0, h, Nat.not_le.mpr h, true_and,
        false_and, false_or]; exact eq_comm
    · simp only [regOperand_valid _ h, State.spDown_room _ h0, reduceCtorEq, h0, h, Nat.not_le.mpr h, false_and, and_false,
        or_self]
  · simp [regOperand_invalid _ h, h, Nat.not_lt.mpr h, eq_comm]

theorem popEffect_error (opA : Byte) (s : State) (c : FaultCause) :
    popEffect opA s = .error c ↔
      (8 ≤ opA.toNat ∧ c = .invalidRegister opA) ∨
      (∃ h : opA.toNat < 8, (s.setReg ⟨opA.toNat, h⟩ (s.load s.sp)).sp = 255 ∧
        c = .outOfBounds .stackUnderflow 256) := by
  unfold popEffect
  rcases Nat.lt_or_ge opA.toNat 8 with h | h
  · simp only [regOperand_valid _ h, h, exists_true_left, Nat.not_le.mpr h, false_and, false_or]
    generalize s.setReg ⟨opA.toNat, h⟩ (s.load s.sp) = u
    by_cases h0 : u.sp = 255
    · simp only [State.spUp_full _ h0, Except.error.injEq, h0, true_and]; exact eq_comm
    · simp only [State.spUp_room _ h0, reduceCtorEq, h0, false_and]
  · simp [regOperand_invalid _ h, h, Nat.not_lt.mpr h, eq_comm]

theorem callEffect_error (opA : Byte) (s : State) (c : FaultCause) :
    callEffect opA s = .error c ↔
      (8 ≤ opA.toNat ∧ c = .invalidRegister opA) ∨
      (opA.toNat < 8 ∧ s.sp = 0 ∧ c = .outOfBounds .stackOverflow (-1)) ∨
      (opA.toNat < 8 ∧ s.sp ≠ 0 ∧ 255 < s.pc.toNat + 2 ∧ c = .outOfBounds .returnAddress (s.pc.toNat + 2)) := by
  unfold callEffect
  rcases Nat.lt_or_ge opA.toNat 8 with h | h
  · by_cases h0 : s.sp = 0
    · simp [regOperand_valid _ h, State.spDown_eq, h0, h, Nat.not_le.mpr h, eq_comm]
    · simp only [regOperand_valid _ h, State.spDown_eq, h0, if_false, h, Nat.not_le.mpr h, ne_eq,
        not_false_eq_true, true_and, false_and, false_or]
      rcases Nat.lt_or_ge 255 (s.pc.toNat + 2) with h2 | h2
      · rw [(s.returnAddress_error _).mpr ⟨h2, rfl⟩]
        simp [h2, eq_comm]
      · rw [(s.returnAddress_ok _).mpr ⟨h2, rfl⟩]
        simp [Nat.not_lt.mpr h2]
  · simp [regOperand_invalid _ h, h, Nat.not_lt.mpr h, eq_comm]

theorem retEffect_error (s : State) (c : FaultCause) :
    retEffect s = .error c ↔ s.sp = 255 ∧ c = .outOfBounds .stackUnderflow 256 := by
  unfold retEffect
  by_cases h0 : s.sp = 255
  · simp only [State.spUp_full _ h0, Except.error.injEq, h0, true_and]; exact eq_comm
  · simp only [State.spUp_room _ h0, reduceCtorEq, h0, false_and]

/-! ### All instructions at once -/

/-- An instruction that does not fault leaves the fault record and the trace alone, and the running flag too unless it
is HLT. -/
theorem effect_keeps_status (i : Instr) (s t : State) (h : effect i s = .ok t) :
    t.fault = s.fault ∧ t.trace = s.trace ∧ t.running = (if i = .hlt then false else s.running) := by
  cases i <;> simp only [effect] at h
  case hlt => cases h; simp
  case ldi => obtain ⟨_, rfl⟩ := (ldiEffect_ok ..).mp h; simp
  case prn => obtain ⟨_, rfl⟩ := (prnEffect_ok ..).mp h; simp
  case add | mul =>
    obtain ⟨u, hu, rfl⟩ := (aluEffect_ok ..).mp h
    obtain ⟨_, _, v, _, rfl⟩ := (aluApply_ok ..).mp hu
    simp
  case push => obtain ⟨_, _, rfl⟩ := (pushEffect_ok ..).mp h; simp
  case pop => obtain ⟨_, _, rfl⟩ := (popEffect_ok ..).mp h; simp
  case call => obtain ⟨_, _, _, rfl⟩ := (callEffect_ok ..).mp h; simp
  case ret => obtain ⟨_, rfl⟩ := (retEffect_ok ..).mp h; simp

/-- The events of an instruction that does not fault: PRN's register value, else none (R101, R190). -/
theorem effect_events (i : Instr) (s t : State) (h : effect i s = .ok t) :
    t.events = s.events ∨ ∃ opA, ∃ hA : opA.toNat < 8, i = .prn opA ∧
      t.events = s.events ++ [.out (s.reg ⟨opA.toNat, hA⟩)] := by
  cases i <;> simp only [effect] at h
  case hlt => cases h; simp
  case ldi => obtain ⟨_, rfl⟩ := (ldiEffect_ok ..).mp h; simp
  case prn opA => obtain ⟨hA, rfl⟩ := (prnEffect_ok ..).mp h; exact .inr ⟨opA, hA, rfl, rfl⟩
  case add | mul =>
    obtain ⟨u, hu, rfl⟩ := (aluEffect_ok ..).mp h
    obtain ⟨_, _, v, _, rfl⟩ := (aluApply_ok ..).mp hu
    simp
  case push => obtain ⟨_, _, rfl⟩ := (pushEffect_ok ..).mp h; simp
  case pop => obtain ⟨_, _, rfl⟩ := (popEffect_ok ..).mp h; simp
  case call => obtain ⟨_, _, _, rfl⟩ := (callEffect_ok ..).mp h; simp
  case ret => obtain ⟨_, rfl⟩ := (retEffect_ok ..).mp h; simp

/-- The memory of an instruction that does not fault: as before, or with one byte stored at the new SP by PUSH or CALL
(R40, R43). -/
theorem effect_memory (i : Instr) (s t : State) (h : effect i s = .ok t) :
    t.mem = s.mem ∨ (s.sp ≠ 0 ∧ (∃ opA, i = .push opA ∨ i = .call opA) ∧
      ∃ v, t.mem = s.mem.write (s.sp - 1).toNat v) := by
  cases i <;> simp only [effect] at h
  case hlt => cases h; simp
  case ldi => obtain ⟨_, rfl⟩ := (ldiEffect_ok ..).mp h; simp
  case prn => obtain ⟨_, rfl⟩ := (prnEffect_ok ..).mp h; simp
  case add | mul =>
    obtain ⟨u, hu, rfl⟩ := (aluEffect_ok ..).mp h
    obtain ⟨_, _, v, _, rfl⟩ := (aluApply_ok ..).mp hu
    simp
  case push opA => obtain ⟨_, h0, rfl⟩ := (pushEffect_ok ..).mp h; exact .inr ⟨h0, ⟨opA, .inl rfl⟩, _, rfl⟩
  case pop => obtain ⟨_, _, rfl⟩ := (popEffect_ok ..).mp h; simp
  case call opA => obtain ⟨_, h0, _, rfl⟩ := (callEffect_ok ..).mp h; exact .inr ⟨h0, ⟨opA, .inr rfl⟩, _, rfl⟩
  case ret => obtain ⟨_, rfl⟩ := (retEffect_ok ..).mp h; simp

/-- The PC of an instruction that does not fault: past its bytes, or for CALL and RET a byte value (R27, R84). -/
theorem effect_pc (i : Instr) (s t : State) (h : effect i s = .ok t) :
    t.pc = s.pc + BitVec.ofNat 9 i.length ∨ (((∃ opA, i = .call opA) ∨ i = .ret) ∧ t.pc.toNat ≤ 255) := by
  cases i <;> simp only [effect] at h
  case hlt => cases h; exact .inl rfl
  case ldi => obtain ⟨_, rfl⟩ := (ldiEffect_ok ..).mp h; exact .inl rfl
  case prn => obtain ⟨_, rfl⟩ := (prnEffect_ok ..).mp h; exact .inl rfl
  case add | mul =>
    obtain ⟨u, hu, rfl⟩ := (aluEffect_ok ..).mp h
    obtain ⟨_, _, v, _, rfl⟩ := (aluApply_ok ..).mp hu
    exact .inl rfl
  case push => obtain ⟨_, _, rfl⟩ := (pushEffect_ok ..).mp h; exact .inl rfl
  case pop => obtain ⟨_, _, rfl⟩ := (popEffect_ok ..).mp h; exact .inl rfl
  case call opA =>
    obtain ⟨hA, _, _, rfl⟩ := (callEffect_ok ..).mp h
    have := ((s.setSp (s.sp - 1)).reg ⟨opA.toNat, hA⟩).isLt
    refine .inr ⟨.inl ⟨opA, rfl⟩, ?_⟩
    simp only [State.setPc_pc, BitVec.toNat_setWidth]; omega
  case ret =>
    obtain ⟨_, rfl⟩ := (retEffect_ok ..).mp h
    have := (s.load s.sp).isLt
    refine .inr ⟨.inr rfl, ?_⟩
    simp only [State.setPc_pc, BitVec.toNat_setWidth]; omega

/-- The causes an instruction can fault with (R181, R182): never UnsupportedOperation (R183). -/
theorem effect_error (i : Instr) (s : State) (c : FaultCause) (h : effect i s = .error c) :
    (∃ idx ∈ i.regOperands, 8 ≤ idx.toNat ∧ c = .invalidRegister idx) ∨
    (s.sp = 0 ∧ c = .outOfBounds .stackOverflow (-1)) ∨ c = .outOfBounds .stackUnderflow 256 ∨
    (∃ opA, i = .call opA ∧ 255 < s.pc.toNat + 2 ∧ c = .outOfBounds .returnAddress (s.pc.toNat + 2)) := by
  cases i <;> simp only [effect] at h
  case hlt => simp at h
  case ldi => obtain ⟨hx, rfl⟩ := (ldiEffect_error ..).mp h; simp [Instr.regOperands, hx]
  case prn => obtain ⟨hx, rfl⟩ := (prnEffect_error ..).mp h; simp [Instr.regOperands, hx]
  case add | mul =>
    rcases (aluApply_error ..).mp ((aluEffect_error ..).mp h) with ⟨hx, rfl⟩ | ⟨_, hx, rfl⟩ | ⟨_, _, ⟨_, hx⟩, _⟩
    · simp [Instr.regOperands, hx]
    · simp [Instr.regOperands, hx]
    · simp at hx
  case push => rcases (pushEffect_error ..).mp h with ⟨hx, rfl⟩ | ⟨_, hx, rfl⟩ <;> simp [Instr.regOperands, hx]
  case pop => rcases (popEffect_error ..).mp h with ⟨hx, rfl⟩ | ⟨_, hx, rfl⟩ <;> simp [Instr.regOperands, hx]
  case call =>
    rcases (callEffect_error ..).mp h with ⟨hx, rfl⟩ | ⟨_, hx, rfl⟩ | ⟨_, _, hx, rfl⟩ <;>
      simp [Instr.regOperands, hx]
  case ret => obtain ⟨_, rfl⟩ := (retEffect_error ..).mp h; simp

end Sys2Proof.Machine
end

