-- ==== Sys2Proof/Laws/PerInstr.lean ====
section
/-! SUPPORT. Facts about every instruction as syntax, one lemma per constructor: the family EncodedShape. -/

namespace Sys2Proof.Laws

/-- The first byte of an instruction is its row's opcode, and its length is that of its row, 1 to 3 bytes, under
whatever opcode map (R60, R61). -/
def EncodedShape.Statement (i : Instr) : Prop :=
  ∀ m : OpcodeMap, (encodeWith m i).head? = some (m.byteOf i.opcode) ∧
    (encodeWith m i).length = 1 + i.opcode.operandCount ∧ (encodeWith m i).length ≤ 3

/-- The bound on the length, once for all constructors. -/
theorem shape_bound (m : OpcodeMap) (i : Instr) : (encodeWith m i).length ≤ 3 :=
  (encodeWith_length m i).le.trans i.length_bounds.2

theorem EncodedShape.hlt : EncodedShape.Statement .hlt := 
  fun _ => ⟨rfl, rfl, shape_bound _ _⟩
theorem EncodedShape.ldi (opA opB : Byte) : EncodedShape.Statement (.ldi opA opB) := 
  fun _ => ⟨rfl, rfl, shape_bound _ _⟩
theorem EncodedShape.prn (opA : Byte) : EncodedShape.Statement (.prn opA) := 
  fun _ => ⟨rfl, rfl, shape_bound _ _⟩
theorem EncodedShape.add (opA opB : Byte) : EncodedShape.Statement (.add opA opB) := 
  fun _ => ⟨rfl, rfl, shape_bound _ _⟩
theorem EncodedShape.mul (opA opB : Byte) : EncodedShape.Statement (.mul opA opB) := 
  fun _ => ⟨rfl, rfl, shape_bound _ _⟩
theorem EncodedShape.push (opA : Byte) : EncodedShape.Statement (.push opA) := 
  fun _ => ⟨rfl, rfl, shape_bound _ _⟩
theorem EncodedShape.pop (opA : Byte) : EncodedShape.Statement (.pop opA) := 
  fun _ => ⟨rfl, rfl, shape_bound _ _⟩
theorem EncodedShape.call (opA : Byte) : EncodedShape.Statement (.call opA) := 
  fun _ => ⟨rfl, rfl, shape_bound _ _⟩
theorem EncodedShape.ret : EncodedShape.Statement .ret := 
  fun _ => ⟨rfl, rfl, shape_bound _ _⟩

end Sys2Proof.Laws
end

