-- ==== Sys2Proof/Laws/Port.lean ====
section
/-! SUPPORT. What the host's ports show (R192, R194). -/

namespace Sys2Proof.Machine

@[simp] theorem State.inspect_regs (s : State) : s.inspect.regs = s.regs := rfl
@[simp] theorem State.inspect_pc (s : State) : s.inspect.pc = s.pc := rfl
@[simp] theorem State.inspect_fault (s : State) : s.inspect.fault = s.fault := rfl

theorem State.inspect_length (s : State) : s.inspect.cells.length = 256 := by
  simp [State.inspect, Config.memSize]

theorem State.inspect_cell (s : State) (a : Nat) (h : a < 256) : s.inspect.cells[a]? = some (s.mem.read a) := by
  simp [State.inspect, Config.memSize, h]

end Sys2Proof.Machine
end

