-- ==== Sys2Proof/Laws/Step.lean ====
section
/-! SUPPORT. What a cycle can do, said once: every invariant and whole-machine rule is derived from `cycle_cases`. -/

namespace Sys2Proof.Machine

/-! ### The trace observer -/

/-- The observer changes the trace only (R191). -/
theorem observe_sameButTrace (p : Params) (s t : State) : sameButTrace t (observe p s t) := by
  unfold observe; split <;> simp [sameButTrace]

@[simp] theorem observe_mem (p : Params) (s t : State) : (observe p s t).mem = t.mem := (observe_sameButTrace p s t).1
@[simp] theorem observe_regs (p : Params) (s t : State) : (observe p s t).regs = t.regs :=
  (observe_sameButTrace p s t).2.1
@[simp] theorem observe_reg (p : Params) (s t : State) (j : Fin Config.numRegs) :
    (observe p s t).reg j = t.reg j := by simp [State.reg]
@[simp] theorem observe_pc (p : Params) (s t : State) : (observe p s t).pc = t.pc :=
  (observe_sameButTrace p s t).2.2.1
@[simp] theorem observe_running (p : Params) (s t : State) : (observe p s t).running = t.running :=
  (observe_sameButTrace p s t).2.2.2.1
@[simp] theorem observe_fault (p : Params) (s t : State) : (observe p s t).fault = t.fault :=
  (observe_sameButTrace p s t).2.2.2.2.1
@[simp] theorem observe_events (p : Params) (s t : State) : (observe p s t).events = t.events :=
  (observe_sameButTrace p s t).2.2.2.2.2

theorem observe_trace (p : Params) (s t : State) :
    (observe p s t).trace = if p.trace ∧ t.fault = none then t.trace ++ [traceRecord s t] else t.trace := by
  unfold observe; split <;> simp_all

/-- A state with a fault record is not traced. -/
theorem observe_of_fault (p : Params) (s t : State) (h : t.fault ≠ none) : observe p s t = t := by
  simp [observe, h]

theorem observe_faultedAs (p : Params) (s u : State) (c : FaultCause) : observe p s (faultedAs u c) = faultedAs u c :=
  observe_of_fault _ _ _ (by simp [faultedAs])

/-! ### The unrecognized opcode -/

theorem skipUnrecognized_strict (p : Params) (s : State) (op : Byte) (h : p.haltOnUnrecognized = true) :
    s.skipUnrecognized p op = faultedAs (s.emit (.unrec s.pc)) (.unrecognizedInstruction op) := by
  simp [State.skipUnrecognized, h, State.raise_eq]

theorem skipUnrecognized_lenient (p : Params) (s : State) (op : Byte) (h : p.haltOnUnrecognized = false) :
    s.skipUnrecognized p op = (s.emit (.unrec s.pc)).setPc (s.pc + 1) := by
  simp [State.skipUnrecognized, h]

/-! ### The fetch -/

/-- Where a fetch answers an instruction, all of its bytes lie at 255 or below (R82). -/
theorem fetch_ok (m : OpcodeMap) (s : State) (i : Instr) (h : s.fetch m = .ok i) :
    s.pc.toNat + i.length ≤ 256 ∧ m.lookup (s.mem.read s.pc.toNat) = some i.opcode ∧
      ∀ k (hk : k < i.operands.length), s.mem.read (s.pc.toNat + 1 + k) = i.operands[k] := by
  obtain ⟨op, h0, hl, hk⟩ := decodeFrom_ok _ _ _ h
  simp only [State.fetchByte_eq, Nat.add_zero, Option.ite_none_right_eq_some, Option.some.injEq] at h0 hk
  obtain ⟨hpc, rfl⟩ := h0
  refine ⟨?_, hl, fun k hlt => ?_⟩
  · rcases Nat.eq_zero_or_pos i.operands.length with h0 | hpos
    · simp only [Instr.operands_length] at h0
      simp only [Instr.length, Opcode.length]; omega
    · have := (hk (i.operands.length - 1) (by omega)).1
      simp only [Instr.operands_length] at this hpos
      simp only [Instr.length, Opcode.length]; omega
  · rw [show s.pc.toNat + 1 + k = s.pc.toNat + (k + 1) by omega]; exact (hk k hlt).2

/-- Where a fetch finds no instruction: the PC is above 255, the opcode is in no row, or the first declared operand
beyond 255 is at address 256 (R81, R82, R181). -/
theorem fetch_error (m : OpcodeMap) (s : State) (r : Rejection) (h : s.fetch m = .error r) :
    (r = .noOpcode ∧ 255 < s.pc.toNat) ∨
    (r = .unrecognized (s.mem.read s.pc.toNat) ∧ s.pc.toNat ≤ 255 ∧ m.lookup (s.mem.read s.pc.toNat) = none) ∨
    (∃ o k, r = .missingOperand k ∧ s.pc.toNat ≤ 255 ∧ m.lookup (s.mem.read s.pc.toNat) = some o ∧ 1 ≤ k ∧
      k ≤ o.operandCount ∧ s.pc.toNat + k = 256) := by
  rcases decodeFrom_error _ _ _ h with ⟨rfl, h0⟩ | ⟨op, rfl, h0, hl⟩ | ⟨op, o, k, rfl, h0, hl, h1, hk, hn, hj⟩
  · simp only [State.fetchByte_eq, Nat.add_zero, ite_eq_right_iff, reduceCtorEq, imp_false] at h0
    exact .inl ⟨rfl, by omega⟩
  · simp only [State.fetchByte_eq, Nat.add_zero, Option.ite_none_right_eq_some, Option.some.injEq] at h0
    obtain ⟨hpc, rfl⟩ := h0
    exact .inr (.inl ⟨rfl, hpc, hl⟩)
  · simp only [State.fetchByte_eq, Nat.add_zero, Option.ite_none_right_eq_some, Option.some.injEq] at h0
    obtain ⟨hpc, rfl⟩ := h0
    refine .inr (.inr ⟨o, k, rfl, hpc, hl, h1, hk, ?_⟩)
    have hlast := hj (k - 1) (by omega)
    simp only [State.fetchByte_eq, ite_eq_right_iff, reduceCtorEq, ne_eq, imp_false] at hn hlast
    omega

/-! ### The cycle -/

/-- What a cycle of a running core does: it commits the fetched instruction and traces it; or the instruction faults;
or the fetch faults; or the opcode is unrecognized, and is skipped or halts. -/
theorem cycle_cases (p : Params) (s t : State) (hr : s.running = true) (h : cycle p s = .next t) :
    (∃ i u, s.fetch p.opcodes = .ok i ∧ effect i s = .ok u ∧ t = observe p s u) ∨
    (∃ i c, s.fetch p.opcodes = .ok i ∧ effect i s = .error c ∧ t = faultedAs s c) ∨
    (255 < s.pc.toNat ∧ t = faultedAs s (.outOfBounds .fetchOpcode s.pc.toNat)) ∨
    (∃ o k, s.pc.toNat ≤ 255 ∧ p.opcodes.lookup (s.mem.read s.pc.toNat) = some o ∧ 1 ≤ k ∧ k ≤ o.operandCount ∧
      s.pc.toNat + k = 256 ∧ t = faultedAs s (.outOfBounds .fetchOperand 256)) ∨
    (s.pc.toNat ≤ 255 ∧ p.opcodes.lookup (s.mem.read s.pc.toNat) = none ∧ p.haltOnUnrecognized = false ∧
      t = observe p s ((s.emit (.unrec s.pc)).setPc (s.pc + 1))) ∨
    (s.pc.toNat ≤ 255 ∧ p.opcodes.lookup (s.mem.read s.pc.toNat) = none ∧ p.haltOnUnrecognized = true ∧
      t = faultedAs (s.emit (.unrec s.pc)) (.unrecognizedInstruction (s.mem.read s.pc.toNat))) := by
  simp only [cycle, hr, if_true, State.dispatch] at h
  cases hf : s.fetch p.opcodes with
  | ok i =>
    simp only [hf] at h
    cases he : effect i s with
    | ok u => rw [exec_of_ok _ _ _ he] at h; cases h; exact .inl ⟨i, u, rfl, he, rfl⟩
    | error c =>
      rw [exec_of_error _ _ _ he] at h
      cases h
      exact .inr (.inl ⟨i, c, rfl, he, observe_faultedAs ..⟩)
  | error r =>
    simp only [hf] at h
    cases h
    refine .inr (.inr ?_)
    rcases fetch_error _ _ _ hf with ⟨rfl, hpc⟩ | ⟨rfl, hpc, hl⟩ | ⟨o, k, rfl, hpc, hl, h1, hk, h256⟩
    · exact .inl ⟨hpc, by simp only [State.rejected, State.raise_eq, observe_faultedAs]⟩
    · refine .inr (.inr ?_)
      simp only [State.rejected]
      cases hs : p.haltOnUnrecognized
      · exact .inl ⟨hpc, hl, rfl, by rw [skipUnrecognized_lenient _ _ _ hs]⟩
      · exact .inr ⟨hpc, hl, rfl, by rw [skipUnrecognized_strict _ _ _ hs, observe_faultedAs]⟩
    · refine .inr (.inl ⟨o, k, hpc, hl, h1, hk, h256, ?_⟩)
      simp only [State.rejected, State.raise_eq, observe_faultedAs, h256]
      rfl

/-- A stopped core answers the same state (R85, R194). -/
theorem cycle_stopped (p : Params) (s : State) (h : s.running = false) : cycle p s = .next s := by simp [cycle, h]

/-- A running core whose fetch answers an instruction: its meaning, then the observer. -/
theorem cycle_of_fetch (p : Params) (s t : State) (i : Instr) (hr : s.running = true)
    (hf : s.fetch p.opcodes = .ok i) (he : exec i s = .next t) : cycle p s = .next (observe p s t) := by
  simp [cycle, hr, State.dispatch, hf, he]

/-- A running core whose fetch is rejected. -/
theorem cycle_of_rejection (p : Params) (s : State) (r : Rejection) (hr : s.running = true)
    (hf : s.fetch p.opcodes = .error r) : cycle p s = .next (observe p s (s.rejected p r)) := by
  simp [cycle, hr, State.dispatch, hf]

end Sys2Proof.Machine
end

