-- ==== Sys2Proof/Tests/Slice0.lean ====
section
/-! SUPPORT. Tests: the words of the spec's encoding, the well-formedness smoke, the spec's own vectors one step each, and a witness for the hypotheses of every statement. -/

namespace Sys2Proof.Tests

open Sys2Proof Sys2Proof.Machine

/-! ### Decoding: words written out from R61 and R63 -/

theorem test_decode_hlt : decode [0b00000001] = .ok (.hlt, []) := by decide
theorem test_decode_ldi : decode [0b10000010, 0b00000101, 0b11000011] = .ok (.ldi 5 0xC3, []) := by decide
theorem test_decode_prn : decode [0b01000111, 0b00000010] = .ok (.prn 2, []) := by decide
theorem test_decode_add : decode [0b10100000, 0b00000011, 0b00000100] = .ok (.add 3 4, []) := by decide
theorem test_decode_mul : decode [0b10100010, 0b00000101, 0b00000110] = .ok (.mul 5 6, []) := by decide
theorem test_decode_push : decode [0b01000101, 0b00000111] = .ok (.push 7, []) := by decide
theorem test_decode_pop : decode [0b01000110, 0b00000001] = .ok (.pop 1, []) := by decide
theorem test_decode_call : decode [0b01010000, 0b00000010] = .ok (.call 2, []) := by decide
theorem test_decode_ret : decode [0b00010001] = .ok (.ret, []) := by decide
/-- An operand byte is taken whole (R62, D24). -/
theorem test_decode_operand_unmasked : decode [0x47, 0xFF, 0x01] = .ok (.prn 0xFF, [0x01]) := by decide
theorem test_decode_rejects : decode [] = .error .noOpcode ∧ decode [0x82] = .error (.missingOperand 1) ∧
    decode [0x82, 0x00] = .error (.missingOperand 2) ∧ decode [0x00, 0x01] = .error (.unrecognized 0x00) := by decide
/-- Bit 0 of a table word is the least significant bit of the opcode byte. -/
theorem test_decodeTableWord : decodeTableWord 24 0xC30582 = some (.ldi 5 0xC3) ∧
    decodeTableWord 8 0xC30582 = some (.ldi 0 0) ∧ decodeTableWord 8 0x11 = some .ret := by decide
/-- R70's notation, with the index byte as it stands. -/
theorem test_assembly : (Instr.ldi 0 8).assembly = "LDI R0, 8" ∧ (Instr.prn 255).assembly = "PRN R255" := by decide

/-! ### Well-formedness smoke -/

theorem test_wf_accepts : (Instr.add 7 7).wf ∧ (Instr.ldi 7 255).wf ∧ Instr.hlt.wf ∧ Instr.ret.wf := by decide
theorem test_wf_refuses_opA : ¬ (Instr.ldi 8 0).wf ∧ ¬ (Instr.prn 8).wf ∧ ¬ (Instr.add 8 0).wf ∧ ¬ (Instr.mul 8 0).wf ∧
    ¬ (Instr.push 8).wf ∧ ¬ (Instr.pop 8).wf ∧ ¬ (Instr.call 8).wf := by decide
theorem test_wf_refuses_opB : ¬ (Instr.add 0 8).wf ∧ ¬ (Instr.mul 0 8).wf := by decide
theorem test_opcodeMap_refuses_duplicate : ¬ ({ defaultOpcodes with mul := 0xA0 } : OpcodeMap).wf := by decide
theorem test_opcodeMap_refuses_reserved : ¬ ({ defaultOpcodes with add := 0x01 } : OpcodeMap).wf ∧
    ¬ ({ defaultOpcodes with pop := 0x00 } : OpcodeMap).wf ∧ ¬ ({ defaultOpcodes with ret := 0xFF } : OpcodeMap).wf := by
  decide

/-! ### One step each, from 95_test_vectors.md -/

/-- Reset with a program loaded, SP and PC set. -/
def start (bytes : List Byte) (sp : Byte := 0xF4) (pc : Pc := 0) : State :=
  ((State.reset.loadBytes bytes).setSp sp).setPc pc

/-- Bytes placed at a PC. -/
def startAt (pc : Pc) (bytes : List Byte) (sp : Byte := 0xF4) : State :=
  { start [] sp pc with mem := Memory.writeBytes [] pc.toNat bytes }

/-- A core that has both the strict setting and no trace port. -/
def strict : Params := { defaultParams with haltOnUnrecognized := true, trace := false }

/-- What a step leaves. -/
def after (s : State) : Option State := nextOf (step s)

/-- CY2: HLT at 255. -/
theorem test_hlt_at_255 : (after (startAt 255 [0x01])).map (fun t => (t.pc, t.running, t.fault)) =
    some (256, false, none) := by decide
/-- CY3: an opcode fetch at 256. -/
theorem test_fetch_at_256 : (after (startAt 256 [])).map (fun t => (t.pc, t.fault)) =
    some (256, some ⟨.outOfBounds .fetchOpcode 256, 256⟩) := by decide
/-- CY5: an unrecognized byte at 255. -/
theorem test_unrecognized_at_255 : (after (startAt 255 [0xFF])).map (fun t => (t.events, t.pc, t.running)) =
    some ([.unrec 255], 256, true) := by decide
/-- CY6: the strict setting. -/
theorem test_unrecognized_strict :
    (nextOf (cycle strict (start [0xFF]))).map (fun t => (t.events, t.fault, t.pc)) =
      some ([.unrec 0], some ⟨.unrecognizedInstruction 0xFF, 0⟩, 0) := by decide
/-- LD4: LDI over the last three bytes. -/
theorem test_ldi_at_253 : (after (startAt 253 [0x82, 0x01, 0x2A])).map (fun t => (t.reg 1, t.pc)) =
    some (0x2A, 256) := by decide
/-- LD5: LDI whose second operand would be at 256. -/
theorem test_ldi_at_254 : (after (startAt 254 [0x82, 0x01])).map (fun t => (t.reg 1, t.fault)) =
    some (0, some ⟨.outOfBounds .fetchOperand 256, 254⟩) := by decide
/-- PR1: PRN R7 at reset. -/
theorem test_prn_r7 : (after (start [0x47, 0x07])).map (fun t => (t.events, t.pc)) = some ([.out 244], 2) := by decide
/-- PR3: a faulting PRN emits nothing. -/
theorem test_prn_invalid : (after (start [0x47, 0x09])).map (fun t => (t.events, t.fault)) =
    some ([], some ⟨.invalidRegister 9, 0⟩) := by decide
/-- AD1 (the source's ADD example). -/
theorem test_add_wraps :
    (after (((start [0xA0, 0x00, 0x01]).setReg 0 200).setReg 1 100)).map (fun t => (t.reg 0, t.reg 1, t.pc)) =
      some (44, 100, 3) := by decide
/-- AD6: opA is checked before opB. -/
theorem test_add_checks_opA_first : (after (start [0xA0, 0x08, 0x09])).map (fun t => t.fault) =
    some (some ⟨.invalidRegister 8, 0⟩) := by decide
/-- MU3: 255 times 255. -/
theorem test_mul_low_byte :
    (after (((start [0xA2, 0x00, 0x01]).setReg 0 255).setReg 1 255)).map (fun t => t.reg 0) = some 1 := by decide
/-- MU4: 15 times 17. -/
theorem test_mul_full_byte :
    (after (((start [0xA2, 0x00, 0x01]).setReg 0 15).setReg 1 17)).map (fun t => t.reg 0) = some 255 := by decide
/-- PU2: PUSH R7 stores the decremented SP. -/
theorem test_push_r7 : (after (start [0x45, 0x07])).map (fun t => (t.sp, t.load 0xF3)) = some (0xF3, 0xF3) := by decide
/-- PU3: stack overflow leaves SP and memory. -/
theorem test_push_overflow : (after (start [0x45, 0x00] (sp := 0))).map (fun t => (t.sp, t.mem, t.fault)) =
    some (0, [(0, 0x45)], some ⟨.outOfBounds .stackOverflow (-1), 0⟩) := by decide
/-- PO2: POP R7 increments the popped byte. -/
theorem test_pop_r7 : (after ((start [0x46, 0x07] (sp := 0xF3)).store 0xF3 0x10)).map (fun t => t.sp) =
    some 0x11 := by decide
/-- PO4: for POP R7 the underflow is of the popped byte. -/
theorem test_pop_r7_underflow : (after ((start [0x46, 0x07] (sp := 200)).store 200 255)).map (fun t => (t.sp, t.fault)) =
    some (200, some ⟨.outOfBounds .stackUnderflow 256, 0⟩) := by decide
/-- CA2: CALL R7 jumps to the decremented SP. -/
theorem test_call_r7 : (after (start [0x50, 0x07])).map (fun t => (t.sp, t.load 0xF3, t.pc)) =
    some (0xF3, 2, 0xF3) := by decide
/-- CA6: SP is checked before the return address. -/
theorem test_call_checks_sp_first : (after (startAt 254 [0x50, 0x00] (sp := 0))).map (fun t => t.fault) =
    some (some ⟨.outOfBounds .stackOverflow (-1), 254⟩) := by decide
/-- RT4: RET at SP = 254. -/
theorem test_ret_at_254 : (after ((start [0x11] (sp := 254)).store 254 0x20)).map (fun t => (t.pc, t.sp)) =
    some (0x20, 255) := by decide
/-- RT2: RET at SP = 255. -/
theorem test_ret_underflow : (after (start [0x11] (sp := 255))).map (fun t => (t.pc, t.fault)) =
    some (0, some ⟨.outOfBounds .stackUnderflow 256, 0⟩) := by decide
/-- R191: the record shows the bytes as fetched and the registers after the cycle. -/
theorem test_trace_record : (after (startAt 254 [0x46, 0x01])).map (fun t => t.trace.map fun r => (r.pc, r.bytes)) =
    some [(254, [some 0x46, some 0x01, none])] := by decide
/-- The host's placed word is what the next step runs. -/
theorem test_withFetchWord : (after (State.reset.withFetchWord 24 0x080082)).map (fun t => (t.reg 0, t.pc)) =
    some (8, 3) := by decide

/-- Log entry 20: a load of no bytes leaves the session as reset left it, so a step without a load is a step after it. -/
theorem test_empty_load_is_no_load (p : Params) : Session.fresh.input p (.load []) = some .fresh := rfl

/-! ### Witnesses: the hypotheses of every statement can be met -/

theorem witness_LoadWritesProgramFromZero :
    (List.replicate 256 (1 : Byte)).length ≤ 256 ∧ 256 < (List.replicate 257 (1 : Byte)).length ∧
      ∃ h', Session.fresh.input defaultParams .step = some h' :=
  ⟨List.length_replicate.le, List.length_replicate.symm ▸ (by decide : 256 < 257), _, rfl⟩

theorem witness_FailedLoadRunsNoCycle :
    (∃ bytes, HostInput.load (List.replicate 257 1) = .load bytes ∧ 256 < bytes.length) ∧
      Session.fresh.phase = .loadable := 
  ⟨⟨_, rfl, List.length_replicate.symm ▸ (by decide : 256 < 257)⟩, rfl⟩

theorem witness_RunStartsAtAddressZero :
    (∃ t, State.reset.loadProgram [0x01] = .ok t) ∧ (∃ t, State.reset.loadProgram [] = .ok t) ∧
      ∃ t, State.reset.loadProgram (List.replicate 256 1) = .ok t :=
  ⟨⟨_, rfl⟩, ⟨_, rfl⟩, _, if_neg (by rw [List.length_replicate]; decide)⟩

theorem witness_DecodeInvertsEncode :
    defaultOpcodes.wf ∧ (⟨0x02, 0xFE, 0x81, 0x83, 0x46, 0x48⟩ : OpcodeMap).wf := by decide

theorem witness_DecodedBytesAreTheEncoding : decodeWith defaultOpcodes [0xA0, 8, 9, 0] = .ok (.add 8 9, [0]) := by decide

theorem witness_UndeclaredBytesAreNotRead :
    (decodeFrom defaultOpcodes (fun k => if k = 0 then some 0x11 else none) = .ok .ret ∧
      ∀ k < Instr.ret.length, (fun _ => some 0x11 : Nat → Option Byte) k = (fun k => if k = 0 then some 0x11 else none) k) ∧
    decodeFrom defaultOpcodes (fun _ => some 0xFF) = .error (.unrecognized 0xFF) := by decide

theorem witness_StepRunsTheDecodedInstruction :
    defaultParams.opcodes.wf ∧ (startAt 253 [0x82, 7, 9]).running = true ∧
      (startAt 253 [0x82, 7, 9]).pc.toNat + (Instr.ldi 7 9).length = 256 ∧
      ∀ k (hk : k < (encodeWith defaultParams.opcodes (.ldi 7 9)).length),
        (startAt 253 [0x82, 7, 9]).mem.read ((startAt 253 [0x82, 7, 9]).pc.toNat + k) =
          (encodeWith defaultParams.opcodes (.ldi 7 9))[k] := by decide

/-- A cycle that a closed computation answers. -/
theorem reach_step (s : State) (h : Reachable defaultParams s) (t : State) (ht : cycle defaultParams s = .next t) :
    Reachable defaultParams t := .cycle s t h ht

/-- LDI R7, 4, then RET to the byte 0xFF at 4, then the unrecognized 0x00 at 255: a run that reaches 256. -/
theorem witness_reachable_256 : ∃ s, Reachable defaultParams s ∧ s.pc.toNat = 256 :=
  ⟨_, reach_step _ (reach_step _ (reach_step _ (.loaded [0x82, 7, 4, 0x11, 0xFF] _ rfl) _ rfl) _ rfl) _ rfl, rfl⟩

theorem witness_OpcodeFetchAbove255Faults :
    (start [] (pc := 255)).pc.toNat ≤ 255 ∧ (start [] (pc := 256)).running = true ∧
      255 < (start [] (pc := 256)).pc.toNat ∧ ∃ s, Reachable defaultParams s ∧ 255 < s.pc.toNat :=
  ⟨by decide, rfl, by decide, witness_reachable_256.elim fun s h => ⟨s, h.1, by omega⟩⟩

theorem witness_OperandFetchReadsDeclaredBytes :
    ((startAt 255 [0x47]).running = true ∧ (startAt 255 [0x47]).mem.read 255 = defaultOpcodes.byteOf .prn ∧
      1 ≤ Opcode.prn.operandCount ∧ 255 < (startAt 255 [0x47]).pc.toNat + 1) ∧
    ((startAt 254 [0x82, 1]).mem.read 254 = defaultOpcodes.byteOf .ldi ∧ Opcode.ldi.operandCount = 2 ∧
      (startAt 254 [0x82, 1]).pc.toNat + 1 ≤ 255 ∧ 255 < (startAt 254 [0x82, 1]).pc.toNat + 2) ∧
    ((startAt 253 [0x82, 1, 2]).mem.read 253 = defaultOpcodes.byteOf .ldi ∧
      (startAt 253 [0x82, 1, 2]).pc.toNat + Opcode.ldi.operandCount = 255) := by decide

theorem witness_UnrecognizedOpcode :
    defaultParams.haltOnUnrecognized = false ∧ strict.haltOnUnrecognized = true ∧ (start [] (pc := 255)).running = true ∧
      (start [] (pc := 255)).pc.toNat ≤ 255 ∧ defaultParams.opcodes.lookup ((start [] (pc := 255)).mem.read 255) = none ∧
      strict.opcodes.lookup ((start [] (pc := 255)).mem.read 255) = none := by decide

theorem witness_StoppedCoreKeepsItsState : State.reset.halt.running = false := rfl

/-- A session that HLT stopped, with the step and reset ports open, and one that a fault stopped, with its record on the
inspect port. -/
theorem witness_StopStateStaysVisibleAndIsLeftByResetOnly :
    (∃ h h', Session.input defaultParams ⟨start [0x01], .loadable⟩ .step = some h ∧ h.core.running = false ∧
      h.phase = .started ∧ h.input defaultParams .step = some h' ∧ ∃ u, h.input defaultParams .reset = some u) ∧
    ∃ h, Session.input defaultParams ⟨start [0x47, 8], .loadable⟩ .step = some h ∧
      h.core.inspect.fault = some ⟨.invalidRegister 8, 0⟩ ∧ h.core.inspect.cells[255]? = some 0 :=
  ⟨⟨_, _, rfl, rfl, rfl, rfl, _, rfl⟩, _, rfl, by decide, by decide⟩

/-- A loaded state meets the invariant, and a cycle runs from it. -/
theorem witness_CycleKeepsInvariant :
    Inv defaultParams (start [0x01]) ∧ ∃ t, cycle defaultParams (start [0x01]) = .next t :=
  ⟨⟨by decide, by decide, fun _ => rfl, fun _ h => (by cases h), fun _ h => (by cases h)⟩, _, rfl⟩

theorem witness_ReachableStatesMeetInvariant : ∃ s, Reachable defaultParams s :=
  witness_reachable_256.elim fun s h => ⟨s, h.1⟩

/-- A cycle that faults, in each setting (LD3, CY6). -/
theorem witness_FaultsArePrecise :
    ((start [0x82, 8, 1]).running = true ∧ (start [0x82, 8, 1]).fault = none ∧
      ∃ t r, cycle defaultParams (start [0x82, 8, 1]) = .next t ∧ t.fault = some r ∧ r.cause = .invalidRegister 8) ∧
    ∃ t r, cycle strict (start [0xFF]) = .next t ∧ t.fault = some r ∧ r.cause = .unrecognizedInstruction 0xFF :=
  ⟨⟨rfl, rfl, _, _, rfl, rfl, rfl⟩, _, _, rfl, rfl, rfl⟩

/-- A cycle with a fault and one without. -/
theorem witness_FaultIsTheFirstFailingCheck :
    (∃ t, cycle defaultParams (start [0x82, 8, 1]) = .next t ∧ t.fault ≠ none) ∧
    ∃ t, cycle defaultParams (start [0x82, 7, 1]) = .next t ∧ t.fault = none :=
  ⟨⟨_, rfl, by decide⟩, _, rfl, by decide⟩

theorem witness_RunningFallsByHltOrFaultOnly :
    (∃ t, cycle defaultParams (startAt 255 [0x01]) = .next t ∧ t.running = false ∧ t.fault = none) ∧
    (∃ t, cycle defaultParams State.reset.halt = .next t) ∧
    ∃ h', Session.fresh.input defaultParams .reset = some h' :=
  ⟨⟨_, rfl, by decide, by decide⟩, ⟨_, rfl⟩, _, rfl⟩

theorem witness_EventStreamIsAppendedAndNeverReadBack :
    (∃ t, cycle defaultParams (start [0x47, 7]) = .next t ∧ t.events = (start [0x47, 7]).events ++ [.out 244]) ∧
    ∃ t, cycle defaultParams (start []) = .next t ∧ t.events = (start []).events ++ [.unrec 0] :=
  ⟨⟨_, rfl, by decide⟩, _, rfl, by decide⟩

/-- With the port and no fault; with a fault; without the port. -/
theorem witness_TraceRecordsEveryCycleThatDoesNotFault :
    (defaultParams.trace = true ∧ ∃ t, cycle defaultParams (startAt 255 [0x01]) = .next t ∧ t.fault = none) ∧
    (∃ t, cycle defaultParams (start [0x82, 8, 1]) = .next t ∧ t.fault ≠ none) ∧
    strict.trace = false ∧ ∃ t, cycle strict (start [0x01]) = .next t :=
  ⟨⟨rfl, _, rfl, by decide⟩, ⟨_, rfl, by decide⟩, rfl, _, rfl⟩

theorem witness_TraceDoesNotAffectExecution :
    ({ defaultParams with trace := false } : Params).opcodes = defaultParams.opcodes ∧
    ({ defaultParams with trace := false } : Params).haltOnUnrecognized = defaultParams.haltOnUnrecognized ∧
    (start [0x01]).fault = none ∧ sameButTrace (start [0x01]) { start [0x01] with trace := [⟨0, [], (start []).regs⟩] } ∧
    ∃ t, cycle defaultParams (start [0x01]) = .next t :=
  ⟨rfl, rfl, rfl, ⟨rfl, rfl, rfl, rfl, rfl, rfl⟩, _, rfl⟩

theorem witness_EndedRunIgnoresTheCeiling :
    ∃ t, runUpTo defaultParams 1 (start [0x01]) = .next t ∧ t.ended ∧ 1 ≤ 2 := ⟨_, rfl, rfl, by decide⟩

theorem witness_StatusIsRunningHaltedOrFaulted :
    (State.reset.running = true ∧ State.reset.fault = none) ∧
    (State.reset.halt.running = false ∧ State.reset.halt.fault = none) ∧
    ((faultedAs State.reset (.invalidRegister 8)).running = false ∧
      (faultedAs State.reset (.invalidRegister 8)).fault = some ⟨.invalidRegister 8, 0⟩) ∧
    Inv defaultParams (start [0x01]) := ⟨by decide, by decide, by decide, witness_CycleKeepsInvariant.1⟩

/-- The hypotheses of `operandFetchFaults` for one and for two operands. -/
theorem witness_operandFetchFaults :
    ((startAt 255 [0x45]).running = true ∧ (startAt 255 [0x45]).pc.toNat ≤ 255 ∧
      (startAt 255 [0x45]).mem.read (startAt 255 [0x45]).pc.toNat = 0x45 ∧ 255 < (startAt 255 [0x45]).pc.toNat + 1) ∧
    ((startAt 254 [0x82]).running = true ∧ (startAt 254 [0x82]).pc.toNat ≤ 255 ∧
      (startAt 254 [0x82]).mem.read (startAt 254 [0x82]).pc.toNat = 0x82 ∧ 255 < (startAt 254 [0x82]).pc.toNat + 2) := by
  decide

/-- The register operands of LDI, PRN, ADD, MUL at the two sides of 8. -/
theorem witness_RegisterOperands : (7 : Byte).toNat < 8 ∧ 8 ≤ (8 : Byte).toNat ∧ 8 ≤ (255 : Byte).toNat := by decide

/-- PUSH and CALL at SP = 0 and SP = 1; CALL at PC 253 and 254. -/
theorem witness_PushAndCall :
    (7 : Byte).toNat < 8 ∧ (start [] (sp := 0)).sp = 0 ∧ (start [] (sp := 1)).sp ≠ 0 ∧
    (start [] (sp := 1) (pc := 253)).pc.toNat + 2 ≤ 255 ∧ 255 < (start [] (sp := 1) (pc := 254)).pc.toNat + 2 := by decide

/-- POP and RET at SP = 254 and 255, and POP R7 with the byte 254 and 255. -/
theorem witness_PopAndRet :
    (start [] (sp := 255)).sp = 255 ∧ (start [] (sp := 254)).sp ≠ 255 ∧
    ((start [] (sp := 9)).store 9 255).mem.read ((start [] (sp := 9)).store 9 255).sp.toNat = 255 ∧
    ((start [] (sp := 9)).store 9 254).mem.read ((start [] (sp := 9)).store 9 254).sp.toNat ≠ 255 := by decide

theorem witness_FirstInvalidRegisterIsReported :
    (Instr.add 7 8).firstInvalid = some 8 ∧ (Instr.mul 9 8).firstInvalid = some 9 ∧ (Instr.push 7).wf ∧
    ∃ t r, exec (.push 7) (start [] (sp := 0)) = .next t ∧ t.fault = some r := ⟨by decide, by decide, by decide, _, _, rfl, rfl⟩

theorem witness_OnlyCallAndRetRedirectThePc :
    (∀ opA, Instr.hlt ≠ .call opA) ∧ Instr.hlt ≠ .ret ∧ (start []).fault = none ∧
    ∃ t, exec .hlt (start []) = .next t ∧ t.fault = none := ⟨by simp, by simp, rfl, _, rfl, rfl⟩

theorem witness_OnlyPushAndCallWriteMemory :
    (∃ t, exec .ret (start []) = .next t) ∧ ∃ t, exec (.push 0) (start [] (sp := 0)) = .next t := ⟨⟨_, rfl⟩, _, rfl⟩

theorem witness_AluContract : ∃ t, aluApply .add 7 0 (start []) = .ok t := ⟨_, rfl⟩

theorem witness_AluResultsReadSigned : aluValue .add 128 128 = some 0 ∧ aluValue .mul 255 255 = some 1 := by decide

/-- Two registers of R0..R6, and R7 twice. -/
theorem witness_PushThenPopRestores :
    (start [] (sp := 1)).sp ≠ 0 ∧ ((0 : Byte) = 7 ↔ (6 : Byte) = 7) ∧ ((7 : Byte) = 7 ↔ (7 : Byte) = 7) := by decide

theorem witness_CallThenRetReturns :
    (7 : Byte).toNat < 8 ∧ (start [] (sp := 1) (pc := 253)).sp ≠ 0 ∧
    (start [] (sp := 1) (pc := 253)).pc.toNat + 2 ≤ 255 := by decide

theorem witness_PushesUntilTheStackIsFull : (7 : Byte).toNat < 8 ∧ State.reset.fault = none ∧ State.reset.sp.toNat = 244 := by
  decide

theorem witness_FetchSeesPushedBytes :
    (0 : Byte) ≠ 7 ∧ State.reset.sp ≠ 0 ∧ ∃ t, exec (.push 0) State.reset = .next t ∧
      ∃ u : State, u.mem = t.mem ∧ u.pc.toNat + 2 = (State.reset.sp - 1).toNat :=
  ⟨by decide, by decide, _, rfl, start [] (pc := 0xF1), by decide, by decide⟩

end Sys2Proof.Tests
end

namespace Sys2Proof.Machine

/-! ### The status (R30) -/

/-- The one combination with no status is running with a fault record (log entry 17). -/
theorem State.status_eq_none_iff (s : State) : s.status = none ↔ s.running = true ∧ s.fault ≠ none := by
  unfold State.status
  cases s.running <;> cases s.fault <;> simp

theorem Inv.status_ne_none {p : Params} {s : State} (hs : Inv p s) : s.status ≠ none := by
  rw [ne_eq, State.status_eq_none_iff]
  rintro ⟨hr, hf⟩
  exact hf (hs.running hr)

/-- Settles O28: the three rows are the definition's; the fourth combination is the one `Inv` excludes. -/
theorem statusIsRunningHaltedOrFaulted : Obligations.StatusIsRunningHaltedOrFaulted := by
  refine ⟨fun s hr hf => ?_, fun s hr hf => ?_, fun s r hr hf => ?_, fun p s hs => hs.status_ne_none⟩
  all_goals simp [State.status, hr, hf]

/-! ### The running flag (R29) -/

@[simp] theorem faultedAs_running (s : State) (c : FaultCause) : (faultedAs s c).running = false := rfl

@[simp] theorem faultedAs_fault (s : State) (c : FaultCause) :
    (faultedAs s c).fault = some { cause := c, pc := s.pc } := rfl

/-- HLT is the only instruction of its row (R63). -/
theorem opcode_eq_hlt_iff (i : Instr) : i.opcode = .hlt ↔ i = .hlt := by
  cases i <;> simp [Instr.opcode]

/-- The fetched instruction is HLT exactly when the byte at the PC is HLT's opcode, under every map (R64). -/
theorem fetched_eq_hlt_iff {m : OpcodeMap} {s : State} {i : Instr} (h : s.fetch m = .ok i) :
    i = .hlt ↔ s.mem.read s.pc.toNat = 0x01 := by
  obtain ⟨_, hl, _⟩ := fetch_ok m s i h
  rw [← opcode_eq_hlt_iff, ← m.lookup_hlt, hl, Option.some.injEq]

/-- An opcode in no row of the map is not HLT's. -/
theorem ne_hlt_of_lookup_eq_none {m : OpcodeMap} {op : Byte} (h : m.lookup op = none) : op ≠ 0x01 := by
  intro hop
  simp [(m.lookup_hlt op).mpr hop] at h

/-- Of the ways a cycle can end, the faults stop the core, and of the other two, a committed instruction and a skipped
opcode, only a committed HLT does. -/
theorem cycle_stops_iff (p : Params) (s t : State) (hr : s.running = true) (hf : s.fault = none)
    (h : cycle p s = .next t) :
    t.running = false ↔ (s.pc.toNat ≤ 255 ∧ s.mem.read s.pc.toNat = 0x01) ∨ t.fault ≠ none := by
  obtain ⟨i, u, hi, hu, rfl⟩ | ⟨_, _, _, _, rfl⟩ | ⟨_, rfl⟩ | ⟨_, _, _, _, _, _, _, rfl⟩ | ⟨_, hl, _, rfl⟩ |
    ⟨_, _, _, rfl⟩ := cycle_cases p s t hr h
  · obtain ⟨hfault, _, hrun⟩ := effect_keeps_status i s u hu
    obtain ⟨hlen, _, _⟩ := fetch_ok _ s i hi
    have hpc : s.pc.toNat ≤ 255 := by have := i.length_bounds; omega
    simpa [hfault, hf, hrun, hr, hpc] using fetched_eq_hlt_iff hi
  · simp
  · simp
  · simp
  · simpa [hr, hf] using fun _ => ne_hlt_of_lookup_eq_none hl
  · simp

/-- Settles O23: the cycle's part is `cycle_stops_iff`; a stopped core answers its own state, and the reset port gives
`Session.fresh`. -/
theorem runningFallsByHltOrFaultOnly : Obligations.RunningFallsByHltOrFaultOnly := by
  refine ⟨rfl, cycle_stops_iff, fun p s t hr h => ?_, fun p h h' hin => ?_⟩
  · rw [cycle_stopped p s hr] at h
    cases h
    exact hr
  · cases hin
    rfl

end Sys2Proof.Machine

namespace Sys2Proof.Machine

/-! ### Encoding (R63 to R65) -/

/-- The decoder reads an encoding back, whatever bytes follow: under an admissible map the opcode byte finds its own row,
and the operand bytes stand where that row's format reads them. -/
theorem decodeWith_encodeWith_append (m : OpcodeMap) (hm : m.wf) (i : Instr) (rest : List Byte) :
    decodeWith m (encodeWith m i ++ rest) = .ok (i, rest) := by
  have hread : decodeFrom m (fun k => (encodeWith m i ++ rest)[k]?) = .ok i := by
    refine decodeFrom_of_bytes m _ i (m.byteOf i.opcode) rfl (m.lookup_byteOf hm i.opcode) fun k hk => ?_
    simp [encodeWith, List.getElem?_append_left hk]
  have hdrop : (encodeWith m i ++ rest).drop i.length = rest := List.drop_left' (encodeWith_length m i)
  simp only [decodeWith, hread, hdrop]

/-- `decodeWith_encodeWith_append` under the spec's own map. -/
theorem decode_encode_append (i : Instr) (rest : List Byte) : decode (encode i ++ rest) = .ok (i, rest) :=
  decodeWith_encodeWith_append defaultOpcodes defaultOpcodes_wf i rest

/-- Settles O6: each list is the encoding of the instruction at its head, followed by the rest of the scenario. -/
theorem sourceScenarioBytesDecode : Obligations.SourceScenarioBytesDecode :=
  ⟨decode_encode_append (.ldi 0 8) [0x47, 0x00, 0x01], decode_encode_append (.prn 0) [0x01],
    decode_encode_append .hlt []⟩

end Sys2Proof.Machine

namespace Sys2Proof.Machine

/-! ### What a fetch reads (R81, R82) -/

/-- The opcode is the byte at the PC, wherever that lies in the address space (R81). -/
theorem fetchByte_zero (s : State) (hpc : s.pc.toNat ≤ 255) : s.fetchByte 0 = some (s.mem.read s.pc.toNat) := by
  rw [State.fetchByte_eq, Nat.add_zero, if_pos hpc]

/-- No opcode lies above 255 (R81). -/
theorem fetch_noOpcode (m : OpcodeMap) (s : State) (hpc : 255 < s.pc.toNat) : s.fetch m = .error .noOpcode := by
  refine decodeFrom_noOpcode m _ ?_
  rw [State.fetchByte_eq, if_neg (by omega)]

/-- An opcode byte in no row is rejected, with no operand read (R67, R87). -/
theorem fetch_unrecognized (m : OpcodeMap) (s : State) (hpc : s.pc.toNat ≤ 255)
    (hl : m.lookup (s.mem.read s.pc.toNat) = none) :
    s.fetch m = .error (.unrecognized (s.mem.read s.pc.toNat)) :=
  decodeFrom_unrecognized m _ _ (fetchByte_zero s hpc) hl

/-- The fetch stops at the declared operand whose address is 256: every byte before it is in range (R82). -/
theorem fetch_missingOperand (m : OpcodeMap) (s : State) (o : Opcode) (k : Nat) (hpc : s.pc.toNat ≤ 255)
    (hl : m.lookup (s.mem.read s.pc.toNat) = some o) (hk : k ≤ o.operandCount) (haddr : s.pc.toNat + k = 256) :
    s.fetch m = .error (.missingOperand k) := by
  refine decodeFrom_missing m _ _ o k (fetchByte_zero s hpc) hl ⟨by omega, hk⟩ ?_ fun j hj => ?_
  · rw [State.fetchByte_eq, if_neg (by omega)]
  · rw [State.fetchByte_eq, if_pos (by omega)]
    simp

/-- Where every declared operand lies at 255 or below, the fetch gives the row's instruction with the bytes that
follow the opcode as its operands (R82). -/
theorem fetch_declared (m : OpcodeMap) (s : State) (o : Opcode) (hl : m.lookup (s.mem.read s.pc.toNat) = some o)
    (hend : s.pc.toNat + o.operandCount ≤ 255) :
    ∃ i, s.fetch m = .ok i ∧ i.opcode = o ∧
      i.operands = (List.range o.operandCount).map fun k => s.mem.read (s.pc.toNat + 1 + k) := by
  cases hf : s.fetch m with
  | ok i =>
    obtain ⟨_, hrow, hbytes⟩ := fetch_ok m s i hf
    obtain rfl : i.opcode = o := by simpa [hrow] using hl
    refine ⟨i, rfl, rfl, List.ext_getElem (by simp) fun k hk _ => ?_⟩
    simp [hbytes k hk]
  | error r =>
    rcases fetch_error m s r hf with ⟨_, hpc⟩ | ⟨_, _, hnone⟩ | ⟨o', k, _, _, hl', _, hk, haddr⟩
    · omega
    · simp [hnone] at hl
    · obtain rfl : o' = o := by simpa [hl'] using hl
      omega

/-- Where memory at the PC holds an instruction's encoding, all of it at 255 or below, the fetch answers that
instruction. -/
theorem fetch_of_encoding (m : OpcodeMap) (hm : m.wf) (s : State) (i : Instr) (hend : s.pc.toNat + i.length ≤ 256)
    (hbytes : ∀ k (hk : k < (encodeWith m i).length), s.mem.read (s.pc.toNat + k) = (encodeWith m i)[k]) :
    s.fetch m = .ok i := by
  have hbyte : ∀ k (hk : k < (encodeWith m i).length), s.fetchByte k = some (encodeWith m i)[k] := fun k hk => by
    have := encodeWith_length m i
    rw [State.fetchByte_eq, if_pos (by omega), hbytes k hk]
  refine decodeFrom_of_bytes m _ i (m.byteOf i.opcode) ?_ (m.lookup_byteOf hm i.opcode) fun k hk => ?_
  · exact hbyte 0 (by simp [encodeWith])
  · exact hbyte (k + 1) (by simpa [encodeWith] using hk)

/-- The decoder's answer depends on the opcode and the declared operands only: readers that agree there are answered
alike, with an instruction or with the same missing operand (R82). -/
theorem decodeFrom_congr (m : OpcodeMap) (f g : Nat → Option Byte) (op : Byte) (o : Opcode) (h0 : f 0 = some op)
    (hl : m.lookup op = some o) (hfg : ∀ k, k ≤ o.operandCount → g k = f k) : decodeFrom m g = decodeFrom m f := by
  have hg0 : g 0 = some op := by rw [hfg 0 (Nat.zero_le _), h0]
  cases hf : decodeFrom m f with
  | ok i =>
    obtain ⟨op', h0', hl', hbytes⟩ := decodeFrom_ok m f i hf
    obtain rfl : op = op' := by simpa [h0] using h0'
    obtain rfl : o = i.opcode := by simpa [hl] using hl'
    refine decodeFrom_of_bytes m g i op hg0 hl fun k hk => ?_
    rw [hfg (k + 1) (by simpa using hk), hbytes k hk]
  | error r =>
    rcases decodeFrom_error m f r hf with
      ⟨_, hnone⟩ | ⟨op', _, h0', hl'⟩ | ⟨op', o', k, rfl, h0', hl', h1, hk, hnone, hbefore⟩
    · simp [h0] at hnone
    · obtain rfl : op = op' := by simpa [h0] using h0'
      simp [hl] at hl'
    · obtain rfl : op = op' := by simpa [h0] using h0'
      obtain rfl : o = o' := by simpa [hl] using hl'
      refine decodeFrom_missing m g op o k hg0 hl ⟨h1, hk⟩ (by rw [hfg k hk, hnone]) fun j hj => ?_
      rw [hfg j (by omega)]
      exact hbefore j hj

/-- Memory that agrees on the opcode and the declared operands gives the same fetch (R82). -/
theorem fetch_congr (m : OpcodeMap) (s u : State) (o : Opcode) (hpc : s.pc.toNat ≤ 255)
    (hl : m.lookup (s.mem.read s.pc.toNat) = some o) (hu : u.pc = s.pc)
    (hread : ∀ k, k ≤ o.operandCount → u.mem.read (s.pc.toNat + k) = s.mem.read (s.pc.toNat + k)) :
    u.fetch m = s.fetch m :=
  decodeFrom_congr m _ _ _ o (fetchByte_zero s hpc) hl fun k hk => by
    rw [State.fetchByte_eq, State.fetchByte_eq, hu, hread k hk]

/-! ### Cycles that execute no instruction (R81, R82, R87, R88) -/

/-- A cycle whose opcode would lie above 255 faults with the PC as it is (R81). -/
theorem cycle_fetchOpcode_fault (p : Params) (s : State) (hr : s.running = true) (hpc : 255 < s.pc.toNat) :
    cycle p s = .next (faultedAs s (.outOfBounds .fetchOpcode s.pc.toNat)) := by
  rw [cycle_of_rejection p s _ hr (fetch_noOpcode _ s hpc), State.rejected, State.raise_eq, observe_faultedAs]

/-- A cycle whose `k`-th declared operand would lie at 256 faults with that operand's address (R82). -/
theorem cycle_fetchOperand_fault (p : Params) (s : State) (o : Opcode) (k : Nat) (hr : s.running = true)
    (hpc : s.pc.toNat ≤ 255) (hl : p.opcodes.lookup (s.mem.read s.pc.toNat) = some o) (hk : k ≤ o.operandCount)
    (haddr : s.pc.toNat + k = 256) :
    cycle p s = .next (faultedAs s (.outOfBounds .fetchOperand (s.pc.toNat + k : Nat))) := by
  rw [cycle_of_rejection p s _ hr (fetch_missingOperand _ s o k hpc hl hk haddr), State.rejected, State.raise_eq,
    observe_faultedAs]

section Unrecognized

variable (p : Params) (s : State) (hr : s.running = true) (hpc : s.pc.toNat ≤ 255)
  (hl : p.opcodes.lookup (s.mem.read s.pc.toNat) = none)
include hr hpc hl

/-- The lenient setting skips an unrecognized opcode (R87). -/
theorem cycle_unrecognized_lenient (hset : p.haltOnUnrecognized = false) :
    cycle p s = .next (observe p s ((s.emit (.unrec s.pc)).setPc (s.pc + 1))) := by
  rw [cycle_of_rejection p s _ hr (fetch_unrecognized _ s hpc hl), State.rejected, skipUnrecognized_lenient _ _ _ hset]

/-- The strict setting faults on an unrecognized opcode, after the report (R88). -/
theorem cycle_unrecognized_strict (hset : p.haltOnUnrecognized = true) :
    cycle p s = .next (faultedAs (s.emit (.unrec s.pc)) (.unrecognizedInstruction (s.mem.read s.pc.toNat))) := by
  rw [cycle_of_rejection p s _ hr (fetch_unrecognized _ s hpc hl), State.rejected, skipUnrecognized_strict _ _ _ hset,
    observe_faultedAs]

end Unrecognized

/-! ### The reach of the PC (R26, R81) -/

/-- An advance to 256 or below does not wrap in 9 bits. -/
theorem toNat_pc_add (pc : Pc) (n : Nat) (h : pc.toNat + n ≤ 256) : (pc + BitVec.ofNat 9 n).toNat = pc.toNat + n := by
  rw [BitVec.toNat_add, BitVec.toNat_ofNat]
  omega

/-- A cycle from a PC of at most 256 leaves one: a fault keeps the PC, an advance starts at a fetch that lay within
0..255, and CALL and RET jump to a byte value. -/
theorem cycle_keeps_pcRange (p : Params) (s t : State) (hs : s.pc.toNat ≤ 256) (h : cycle p s = .next t) :
    t.pc.toNat ≤ 256 := by
  cases hr : s.running with
  | false =>
    rw [cycle_stopped p s hr] at h
    cases h
    exact hs
  | true =>
    obtain ⟨i, u, hi, hu, rfl⟩ | ⟨_, _, _, _, rfl⟩ | ⟨_, rfl⟩ | ⟨_, _, _, _, _, _, _, rfl⟩ | ⟨hpc, _, _, rfl⟩ |
      ⟨_, _, _, rfl⟩ := cycle_cases p s t hr h
    · obtain ⟨hend, _, _⟩ := fetch_ok _ s i hi
      rw [observe_pc]
      rcases effect_pc i s u hu with hadv | ⟨_, hjump⟩
      · rw [hadv, toNat_pc_add _ _ hend]
        exact hend
      · omega
    · exact hs
    · exact hs
    · exact hs
    · rw [observe_pc, State.setPc_pc]
      exact (toNat_pc_add s.pc 1 (by omega)).trans_le (by omega)
    · exact hs

/-- A load leaves the PC at its reset value (R210, R211). -/
theorem loadProgram_reset_pc (bytes : List Byte) (t : State) (h : State.reset.loadProgram bytes = .ok t) :
    t.pc = Config.pcReset := by
  unfold State.loadProgram at h
  split at h
  · cases h
  · cases h
    rfl

/-- No run takes the PC above 256 (R26). -/
theorem reachable_pcRange (p : Params) (s : State) (h : Reachable p s) : s.pc.toNat ≤ 256 := by
  induction h with
  | loaded bytes t ht => simp [loadProgram_reset_pc bytes t ht]
  | cycle s t _ hcycle ih => exact cycle_keeps_pcRange p s t ih hcycle

/-! ### Execution -/

/-- Every instruction answers a next state: its effect, or the state of its fault (R83). -/
theorem exec_answers_next (i : Instr) (s : State) : ∃ t, exec i s = .next t := by
  cases he : effect i s with
  | ok t => exact ⟨t, exec_of_ok i s t he⟩
  | error c => exact ⟨faultedAs s c, exec_of_error i s c he⟩

/-- HLT stops the core and advances past its byte (R86). -/
theorem exec_hlt (s : State) : exec .hlt s = .next (s.halt.advance .hlt) := exec_of_ok .hlt s _ rfl

/-! ### The statements -/

/-- Settles O14: each clause is a fact about the fetch under the row that an admissible map finds for the opcode. -/
theorem operandFetchReadsDeclaredBytes : Obligations.OperandFetchReadsDeclaredBytes := by
  intro p s o hm hr hpc hop
  have hl : p.opcodes.lookup (s.mem.read s.pc.toNat) = some o := by rw [hop, p.opcodes.lookup_byteOf hm]
  refine ⟨fun hcount hA => ?_, fun hcount hA hB => ?_, fetch_declared _ s o hl,
    fun u hu hread => fetch_congr _ s u o hpc hl hu hread⟩
  · simpa using cycle_fetchOperand_fault p s o 1 hr hpc hl hcount (by omega)
  · simpa using cycle_fetchOperand_fault p s o 2 hr hpc hl hcount.ge (by omega)

/-- Settles O12: the encoding at the PC is what the fetch decodes, and the cycle commits its meaning. -/
theorem stepRunsTheDecodedInstruction : Obligations.StepRunsTheDecodedInstruction := by
  refine ⟨fun p s i hm hr hend hbytes => ?_, fun s => rfl⟩
  obtain ⟨t, ht⟩ := exec_answers_next i s
  exact ⟨t, ht, cycle_of_fetch p s t i hr (fetch_of_encoding _ hm s i hend hbytes) ht⟩

/-- Settles O13: the last clause is the bound 256 that every cycle keeps. -/
theorem opcodeFetchAbove255Faults : Obligations.OpcodeFetchAbove255Faults := by
  refine ⟨fetchByte_zero, cycle_fetchOpcode_fault, fun p s hreach habove => ?_⟩
  have := reachable_pcRange p s hreach
  omega

/-- Settles O15: the cycle emits the report and moves the PC; every other field is read through those two updates. -/
theorem unrecognizedOpcodeIsReportedAndSkipped : Obligations.UnrecognizedOpcodeIsReportedAndSkipped := by
  intro p s hset hr hpc hl
  refine ⟨_, cycle_unrecognized_lenient p s hr hpc hl hset, ?_⟩
  simp [sameMemory, sameRegs, hr]

/-- Settles O16: the cycle leaves the fault state of R184 with the report emitted before it. -/
theorem strictUnrecognizedOpcodeHalts : Obligations.StrictUnrecognizedOpcodeHalts := by
  refine ⟨rfl, fun p s hset hr hpc hl => ?_⟩
  exact ⟨_, cycle_unrecognized_strict p s hr hpc hl hset, rfl, rfl, rfl, rfl, fun _ => rfl, fun _ => rfl, rfl⟩

/-- Settles O29: HLT's row is one byte long, and halting and advancing change the running flag and the PC only. -/
theorem hltStopsAfterItsByte : Obligations.HltStopsAfterItsByte := by
  refine ⟨rfl, fun s => ⟨_, exec_hlt s, rfl, rfl, ?_⟩⟩
  simp [sameMemory, sameRegs]

end Sys2Proof.Machine

namespace Sys2Proof.Machine

/-! ### A declared operand above 255, in the row's terms (R82) -/

/-- Each row's opcode faults where one of its declared operands would lie above 255: the first such address is 256. -/
theorem operandFetchFaults_byteOf (o : Opcode) : operandFetchFaults (defaultOpcodes.byteOf o) o.operandCount := by
  intro s hr hpc hop hend
  have hl : defaultOpcodes.lookup (s.mem.read s.pc.toNat) = some o := by
    rw [hop, defaultOpcodes.lookup_byteOf defaultOpcodes_wf]
  have haddr : s.pc.toNat + (256 - s.pc.toNat) = 256 := by omega
  have hfault := cycle_fetchOperand_fault defaultParams s o (256 - s.pc.toNat) hr hpc hl (by omega) haddr
  rw [haddr] at hfault
  exact hfault

/-! ### LDI and PRN (R100, R101) -/

/-- LDI into a register that exists writes the immediate there and advances (R100). -/
theorem exec_ldi (opA opB : Byte) (s : State) (h : opA.toNat < 8) :
    exec (.ldi opA opB) s = .next ((s.setReg ⟨opA.toNat, h⟩ opB).advance .ldi) :=
  exec_of_ok _ s _ ((ldiEffect_ok opA opB s _).mpr ⟨h, rfl⟩)

/-- LDI into an index of 8 or more faults (R100, R182). -/
theorem exec_ldi_invalidRegister (opA opB : Byte) (s : State) (h : 8 ≤ opA.toNat) :
    exec (.ldi opA opB) s = .next (faultedAs s (.invalidRegister opA)) :=
  exec_of_error _ s _ ((ldiEffect_error opA opB s _).mpr ⟨h, rfl⟩)

/-- PRN of a register that exists emits its value and advances (R101). -/
theorem exec_prn (opA : Byte) (s : State) (h : opA.toNat < 8) :
    exec (.prn opA) s = .next ((s.emit (.out (s.reg ⟨opA.toNat, h⟩))).advance .prn) :=
  exec_of_ok _ s _ ((prnEffect_ok opA s _).mpr ⟨h, rfl⟩)

/-- PRN of an index of 8 or more faults (R101, R182). -/
theorem exec_prn_invalidRegister (opA : Byte) (s : State) (h : 8 ≤ opA.toNat) :
    exec (.prn opA) s = .next (faultedAs s (.invalidRegister opA)) :=
  exec_of_error _ s _ ((prnEffect_error opA s _).mpr ⟨h, rfl⟩)

/-- Settles O30: LDI's row declares two operands, and the register write and the advance change that register and the
PC only. -/
theorem ldiLoadsTheImmediate : Obligations.LdiLoadsTheImmediate := by
  refine ⟨fun _ _ => rfl, operandFetchFaults_byteOf .ldi, exec_ldi_invalidRegister,
    fun opA opB s h => ⟨_, exec_ldi opA opB s h, fun q => ?_, rfl, fun _ => rfl, ⟨rfl, rfl, rfl⟩, rfl⟩⟩
  rw [State.advance_reg, State.setReg_reg]

/-- Settles O31: PRN's row declares one operand, and the emission and the advance change the events and the PC only. -/
theorem prnEmitsTheRegister : Obligations.PrnEmitsTheRegister :=
  ⟨fun _ => rfl, operandFetchFaults_byteOf .prn, exec_prn_invalidRegister, fun opA s h =>
    ⟨_, exec_prn opA s h, rfl, rfl, fun _ => rfl, fun _ => rfl, ⟨rfl, rfl, rfl⟩⟩⟩

end Sys2Proof.Machine

namespace Sys2Proof.Machine

/-! ### The ALU's result and its register (R120, R124) -/

theorem toNat_narrow (n : Nat) : (narrow n).toNat = n % 256 := BitVec.toNat_ofNat n 8

/-- What the result register holds after an ALU instruction. -/
theorem setReg_narrow_advance_reg_same (s : State) (d : Fin Config.numRegs) (n : Nat) (o : Opcode) :
    (((s.setReg d (narrow n)).advance o).reg d).toNat = n % 256 := by
  rw [State.advance_reg, State.setReg_reg, if_pos rfl, toNat_narrow]

theorem setReg_advance_reg_other (s : State) {d q : Fin Config.numRegs} (v : Byte) (o : Opcode) (hq : q ≠ d) :
    ((s.setReg d v).advance o).reg q = s.reg q := by
  rw [State.advance_reg, State.setReg_reg, if_neg hq]

/-! ### An ALU instruction, for every tag (R120, R186) -/

/-- Two registers that exist and a tag the ALU has: the value computed from both old contents goes to the first
register, and the PC advances (R120, R84). -/
theorem aluEffect_valid (tag : AluTag) (o : Opcode) (opA opB : Byte) (s : State) (v : Byte) (ha : opA.toNat < 8)
    (hb : opB.toNat < 8) (hv : aluValue tag (s.reg ⟨opA.toNat, ha⟩) (s.reg ⟨opB.toNat, hb⟩) = some v) :
    aluEffect tag o opA opB s = .ok ((s.setReg ⟨opA.toNat, ha⟩ v).advance o) :=
  (aluEffect_ok ..).mpr ⟨_, (aluApply_ok ..).mpr ⟨ha, hb, v, hv, rfl⟩, rfl⟩

/-- The destination is checked first (R186). -/
theorem aluEffect_invalidDest (tag : AluTag) (o : Opcode) (opA opB : Byte) (s : State) (ha : 8 ≤ opA.toNat) :
    aluEffect tag o opA opB s = .error (.invalidRegister opA) :=
  (aluEffect_error ..).mpr ((aluApply_error ..).mpr (.inl ⟨ha, rfl⟩))

/-- The source is checked once the destination is valid (R186). -/
theorem aluEffect_invalidSrc (tag : AluTag) (o : Opcode) (opA opB : Byte) (s : State) (ha : opA.toNat < 8)
    (hb : 8 ≤ opB.toNat) : aluEffect tag o opA opB s = .error (.invalidRegister opB) :=
  (aluEffect_error ..).mpr ((aluApply_error ..).mpr (.inr (.inl ⟨ha, hb, rfl⟩)))

/-! ### ADD and MUL (R122, R123) -/

/-- ADD of two registers that exist (R122). -/
theorem exec_add (opA opB : Byte) (s : State) (ha : opA.toNat < 8) (hb : opB.toNat < 8) :
    exec (.add opA opB) s = .next ((s.setReg ⟨opA.toNat, ha⟩
      (narrow ((s.reg ⟨opA.toNat, ha⟩).toNat + (s.reg ⟨opB.toNat, hb⟩).toNat))).advance .add) :=
  exec_of_ok _ s _ (aluEffect_valid .add .add opA opB s _ ha hb rfl)

/-- MUL of two registers that exist (R123). -/
theorem exec_mul (opA opB : Byte) (s : State) (ha : opA.toNat < 8) (hb : opB.toNat < 8) :
    exec (.mul opA opB) s = .next ((s.setReg ⟨opA.toNat, ha⟩
      (narrow ((s.reg ⟨opA.toNat, ha⟩).toNat * (s.reg ⟨opB.toNat, hb⟩).toNat))).advance .mul) :=
  exec_of_ok _ s _ (aluEffect_valid .mul .mul opA opB s _ ha hb rfl)

/-- Settles O32: the register written is the exact sum, narrowed, and the register write and the advance change that
register and the PC only. -/
theorem addWrapsModulo256 : Obligations.AddWrapsModulo256 := by
  refine ⟨fun _ _ => rfl, operandFetchFaults_byteOf .add,
    fun opA opB s ha => exec_of_error _ s _ (aluEffect_invalidDest .add .add opA opB s ha),
    fun opA opB s ha hb => exec_of_error _ s _ (aluEffect_invalidSrc .add .add opA opB s ha hb),
    fun opA opB s ha hb => ⟨_, exec_add opA opB s ha hb, ?_, ?_, rfl, fun _ => rfl, ⟨rfl, rfl, rfl⟩, rfl⟩⟩
  · exact setReg_narrow_advance_reg_same s _ _ .add
  · exact fun q hq => setReg_advance_reg_other s _ .add hq

/-- Settles O33: as for ADD, with the exact product narrowed. -/
theorem mulKeepsTheLowByte : Obligations.MulKeepsTheLowByte := by
  refine ⟨fun _ _ => rfl, operandFetchFaults_byteOf .mul,
    fun opA opB s ha => exec_of_error _ s _ (aluEffect_invalidDest .mul .mul opA opB s ha),
    fun opA opB s ha hb => exec_of_error _ s _ (aluEffect_invalidSrc .mul .mul opA opB s ha hb),
    fun opA opB s ha hb => ⟨_, exec_mul opA opB s ha hb, ?_, ?_, rfl, fun _ => rfl, ⟨rfl, rfl, rfl⟩, rfl⟩⟩
  · exact setReg_narrow_advance_reg_same s _ _ .mul
  · exact fun q hq => setReg_advance_reg_other s _ .mul hq

end Sys2Proof.Machine

namespace Sys2Proof.Machine

/-! ### PUSH (R140) -/

/-- PUSH of a register that exists with SP above 0: SP goes down, and then the register is read and stored (R140). -/
theorem exec_push (opA : Byte) (s : State) (h : opA.toNat < 8) (hsp : s.sp ≠ 0) :
    exec (.push opA) s = .next (((s.setSp (s.sp - 1)).store (s.sp - 1)
      ((s.setSp (s.sp - 1)).reg ⟨opA.toNat, h⟩)).advance .push) :=
  exec_of_ok _ s _ ((pushEffect_ok opA s _).mpr ⟨h, hsp, rfl⟩)

/-- PUSH of an index of 8 or more faults (R140, R182). -/
theorem exec_push_invalidRegister (opA : Byte) (s : State) (h : 8 ≤ opA.toNat) :
    exec (.push opA) s = .next (faultedAs s (.invalidRegister opA)) :=
  exec_of_error _ s _ ((pushEffect_error opA s _).mpr (.inl ⟨h, rfl⟩))

/-- PUSH of a register that exists with SP at 0 faults (R140, R181). -/
theorem exec_push_stackOverflow (opA : Byte) (s : State) (h : opA.toNat < 8) (hsp : s.sp = 0) :
    exec (.push opA) s = .next (faultedAs s (.outOfBounds .stackOverflow (-1))) :=
  exec_of_error _ s _ ((pushEffect_error opA s _).mpr (.inr ⟨h, hsp, rfl⟩))

/-- A register operand read after SP was written: R7 gives the new SP (R22). -/
theorem setSp_reg_operand (s : State) (v opA : Byte) (h : opA.toNat < 8) :
    (s.setSp v).reg ⟨opA.toNat, h⟩ = if opA = 7 then v else s.reg ⟨opA.toNat, h⟩ := by
  simp only [State.setSp_reg, operand_eq_sp_iff]

/-- Settles O34: SP is decremented before the register is read, so R7 stores the new SP, and the store is at that
address. -/
theorem pushStoresBelowTheStackTop : Obligations.PushStoresBelowTheStackTop := by
  refine ⟨fun _ => rfl, operandFetchFaults_byteOf .push, exec_push_invalidRegister, exec_push_stackOverflow,
    fun opA s h hsp => ⟨_, exec_push opA s h hsp, fun q => ?_, fun a => ?_, rfl, ⟨rfl, rfl, rfl⟩, rfl⟩⟩
  · rw [State.advance_reg, State.store_reg, State.setSp_reg]
  · rw [State.advance_mem, State.store_mem, State.setSp_mem, Memory.read_write, setSp_reg_operand]

/-! ### POP (R141) -/

/-- The SP that POP increments: SP itself, or for R7 the byte just popped into it (R141). -/
theorem popped_sp (s : State) (opA : Byte) (h : opA.toNat < 8) :
    (s.setReg ⟨opA.toNat, h⟩ (s.load s.sp)).sp = if opA = 7 then s.mem.read s.sp.toNat else s.sp := by
  simp only [State.setReg_sp, operand_eq_sp_iff, State.load]

/-- POP into a register that exists, in terms of the SP it increments. -/
theorem exec_pop_of_popped_sp (opA : Byte) (s : State) (h : opA.toNat < 8) {sp : Byte}
    (hsp : (s.setReg ⟨opA.toNat, h⟩ (s.load s.sp)).sp = sp) (hroom : sp ≠ 255) :
    exec (.pop opA) s = .next (((s.setReg ⟨opA.toNat, h⟩ (s.load s.sp)).setSp (sp + 1)).advance .pop) := by
  subst hsp
  exact exec_of_ok _ s _ ((popEffect_ok opA s _).mpr ⟨h, hroom, rfl⟩)

/-- POP of R0..R6 with SP below 255: the byte at SP goes to the register, and SP goes up (R141). -/
theorem exec_pop (opA : Byte) (s : State) (h : opA.toNat < 8) (h7 : opA ≠ 7) (hsp : s.sp ≠ 255) :
    exec (.pop opA) s = .next (((s.setReg ⟨opA.toNat, h⟩ (s.load s.sp)).setSp (s.sp + 1)).advance .pop) :=
  exec_pop_of_popped_sp opA s h (by rw [popped_sp, if_neg h7]) hsp

/-- POP R7 of a byte below 255: the byte goes to SP, and SP goes up from there (R141). -/
theorem exec_pop_sp (s : State) (hbyte : s.load s.sp ≠ 255) :
    exec (.pop 7) s = .next (((s.setReg Config.spIndex (s.load s.sp)).setSp (s.load s.sp + 1)).advance .pop) :=
  exec_pop_of_popped_sp 7 s (by decide) (popped_sp s 7 (by decide)) hbyte

/-- POP of an index of 8 or more faults (R141, R182). -/
theorem exec_pop_invalidRegister (opA : Byte) (s : State) (h : 8 ≤ opA.toNat) :
    exec (.pop opA) s = .next (faultedAs s (.invalidRegister opA)) :=
  exec_of_error _ s _ ((popEffect_error opA s _).mpr (.inl ⟨h, rfl⟩))

/-- POP into a register that exists faults where the SP it increments is 255: for R7 that is the popped byte (R141,
R181). -/
theorem exec_pop_stackUnderflow (opA : Byte) (s : State) (h : opA.toNat < 8)
    (hfull : if opA = 7 then s.mem.read s.sp.toNat = 255 else s.sp = 255) :
    exec (.pop opA) s = .next (faultedAs s (.outOfBounds .stackUnderflow 256)) := by
  refine exec_of_error _ s _ ((popEffect_error opA s _).mpr (.inr ⟨h, ?_, rfl⟩))
  rw [popped_sp]
  split_ifs at hfull ⊢ <;> exact hfull

/-- Settles O35: for R0..R6 the SP that is incremented is the old one, for R7 it is the byte just popped; the register
writes and the advance change the registers and the PC only. -/
theorem popLoadsTheStackTop : Obligations.PopLoadsTheStackTop := by
  refine ⟨fun _ => rfl, operandFetchFaults_byteOf .pop, exec_pop_invalidRegister, exec_pop_stackUnderflow,
    fun opA s h hsp => ?_, fun s hbyte => ⟨_, exec_pop_sp s hbyte, fun q => ?_, rfl, fun _ => rfl, ⟨rfl, rfl, rfl⟩, rfl⟩⟩
  · have h7 : opA ≠ 7 := by rintro rfl; exact absurd h (by decide)
    refine ⟨_, exec_pop opA s (by omega) h7 hsp, fun q => ?_, rfl, fun _ => rfl, ⟨rfl, rfl, rfl⟩, rfl⟩
    simp only [State.advance_reg, State.setSp_reg, State.setReg_reg, Fin.ext_iff, State.load]
  · rw [State.advance_reg, State.setSp_reg, State.setReg_reg]
    split_ifs <;> rfl

end Sys2Proof.Machine

namespace Sys2Proof.Machine

/-! ### CALL (R160) -/

/-- CALL of a register that exists, with SP above 0 and a return address that fits a byte: SP goes down, the return
address is stored there, and then the target register is read (R160). -/
theorem exec_call (opA : Byte) (s : State) (h : opA.toNat < 8) (hsp : s.sp ≠ 0) (hpc : s.pc.toNat + 2 ≤ 255) :
    exec (.call opA) s = .next (((s.setSp (s.sp - 1)).store (s.sp - 1) (BitVec.ofNat 8 (s.pc.toNat + 2))).setPc
      (((s.setSp (s.sp - 1)).reg ⟨opA.toNat, h⟩).setWidth 9)) :=
  exec_of_ok _ s _ ((callEffect_ok opA s _).mpr ⟨h, hsp, hpc, rfl⟩)

/-- CALL of an index of 8 or more faults (R160, R182). -/
theorem exec_call_invalidRegister (opA : Byte) (s : State) (h : 8 ≤ opA.toNat) :
    exec (.call opA) s = .next (faultedAs s (.invalidRegister opA)) :=
  exec_of_error _ s _ ((callEffect_error opA s _).mpr (.inl ⟨h, rfl⟩))

/-- CALL of a register that exists with SP at 0 faults, wherever the CALL stands (R160, R181). -/
theorem exec_call_stackOverflow (opA : Byte) (s : State) (h : opA.toNat < 8) (hsp : s.sp = 0) :
    exec (.call opA) s = .next (faultedAs s (.outOfBounds .stackOverflow (-1))) :=
  exec_of_error _ s _ ((callEffect_error opA s _).mpr (.inr (.inl ⟨h, hsp, rfl⟩)))

/-- CALL with room on the stack faults where the return address does not fit a byte (R160, R181). -/
theorem exec_call_returnAddress (opA : Byte) (s : State) (h : opA.toNat < 8) (hsp : s.sp ≠ 0)
    (hpc : 255 < s.pc.toNat + 2) :
    exec (.call opA) s = .next (faultedAs s (.outOfBounds .returnAddress (s.pc.toNat + 2))) :=
  exec_of_error _ s _ ((callEffect_error opA s _).mpr (.inr (.inr ⟨h, hsp, hpc, rfl⟩)))

/-- A jump to a byte puts exactly that value in the PC (R27). -/
theorem setPc_byte_toNat (s : State) (b : Byte) : (s.setPc (b.setWidth 9)).pc.toNat = b.toNat :=
  BitVec.toNat_setWidth_of_le (by decide)

/-- Settles O36: the new SP is written before the target register is read, so R7 jumps to the new SP, and the one byte
stored there is the return address. -/
theorem callPushesTheReturnAddress : Obligations.CallPushesTheReturnAddress := by
  refine ⟨fun _ => rfl, operandFetchFaults_byteOf .call, exec_call_invalidRegister, exec_call_stackOverflow,
    exec_call_returnAddress, fun opA s h hsp hpc =>
      ⟨_, exec_call opA s h hsp hpc, ?_, fun q => ?_, ?_, fun a ha => ?_, ⟨rfl, rfl, rfl⟩, rfl⟩⟩
  · rw [setPc_byte_toNat, setSp_reg_operand]
  · rw [State.setPc_reg, State.store_reg, State.setSp_reg]
  · rw [State.setPc_mem, State.store_mem, Memory.read_write, if_pos rfl, BitVec.toNat_ofNat,
      Nat.mod_eq_of_lt (by omega)]
  · rw [State.setPc_mem, State.store_mem, State.setSp_mem, Memory.read_write, if_neg ha]

/-! ### RET (R161) -/

/-- RET with SP below 255: SP goes up, and the PC is the byte at the old SP (R161). -/
theorem exec_ret (s : State) (hsp : s.sp ≠ 255) :
    exec .ret s = .next ((s.setSp (s.sp + 1)).setPc ((s.load s.sp).setWidth 9)) :=
  exec_of_ok _ s _ ((retEffect_ok s _).mpr ⟨hsp, rfl⟩)

/-- RET with SP at 255 faults (R161, R181). -/
theorem exec_ret_stackUnderflow (s : State) (hsp : s.sp = 255) :
    exec .ret s = .next (faultedAs s (.outOfBounds .stackUnderflow 256)) :=
  exec_of_error _ s _ ((retEffect_error s _).mpr ⟨hsp, rfl⟩)

/-- Settles O37: the byte at SP goes to the PC whatever stored it, and the SP write changes R7 only. -/
theorem retPopsTheReturnAddress : Obligations.RetPopsTheReturnAddress := by
  refine ⟨rfl, exec_ret_stackUnderflow, fun s hsp =>
    ⟨_, exec_ret s hsp, ?_, fun q => ?_, fun _ => rfl, ⟨rfl, rfl, rfl⟩, rfl⟩⟩
  · rw [setPc_byte_toNat, State.load]
  · rw [State.setPc_reg, State.setSp_reg]

end Sys2Proof.Machine

namespace Sys2Proof.Machine

/-! ### Invalid registers (R182) -/

/-- The first invalid index of a lone register operand. -/
theorem find?_invalid_singleton (opA idx : Byte) :
    ([opA].find? fun x => decide (¬ validIndex x)) = some idx ↔ 8 ≤ opA.toNat ∧ opA = idx := by
  simp [List.find?_singleton, validIndex, Config.numRegs]

/-- The first invalid index of two register operands: opA's, and opB's only where opA is valid (R186). -/
theorem find?_invalid_pair (opA opB idx : Byte) :
    ([opA, opB].find? fun x => decide (¬ validIndex x)) = some idx ↔
      (8 ≤ opA.toNat ∧ opA = idx) ∨ (opA.toNat < 8 ∧ 8 ≤ opB.toNat ∧ opB = idx) := by
  rcases Nat.lt_or_ge opA.toNat 8 with hA | hA
  · rw [List.find?_cons_of_neg (by simpa [validIndex, Config.numRegs] using hA), find?_invalid_singleton]
    simp [hA, Nat.not_le.mpr hA]
  · rw [List.find?_cons_of_pos (by simpa [validIndex, Config.numRegs] using hA)]
    simp [hA, Nat.not_lt.mpr hA]

/-- The register checks come before every other check of an instruction, in the order of `Instr.regOperands` (R186). -/
theorem exec_of_firstInvalid (i : Instr) (s : State) (idx : Byte) (h : i.firstInvalid = some idx) :
    exec i s = .next (faultedAs s (.invalidRegister idx)) := by
  cases i <;> simp only [Instr.firstInvalid, Instr.regOperands] at h
  case hlt | ret => cases h
  case ldi => obtain ⟨h8, rfl⟩ := (find?_invalid_singleton ..).mp h; exact exec_ldi_invalidRegister _ _ s h8
  case prn => obtain ⟨h8, rfl⟩ := (find?_invalid_singleton ..).mp h; exact exec_prn_invalidRegister _ s h8
  case add | mul =>
    obtain ⟨h8, rfl⟩ | ⟨hA, h8, rfl⟩ := (find?_invalid_pair ..).mp h
    · exact exec_of_error _ s _ (aluEffect_invalidDest _ _ _ _ s h8)
    · exact exec_of_error _ s _ (aluEffect_invalidSrc _ _ _ _ s hA h8)
  case push => obtain ⟨h8, rfl⟩ := (find?_invalid_singleton ..).mp h; exact exec_push_invalidRegister _ s h8
  case pop => obtain ⟨h8, rfl⟩ := (find?_invalid_singleton ..).mp h; exact exec_pop_invalidRegister _ s h8
  case call => obtain ⟨h8, rfl⟩ := (find?_invalid_singleton ..).mp h; exact exec_call_invalidRegister _ s h8

/-- An instruction whose register operands are all valid faults for another cause (R182). -/
theorem effect_error_ne_invalidRegister (i : Instr) (s : State) (c : FaultCause) (idx : Byte) (hwf : i.wf)
    (h : effect i s = .error c) : c ≠ .invalidRegister idx := by
  obtain ⟨bad, hmem, hbad, _⟩ | ⟨_, rfl⟩ | rfl | ⟨_, _, _, rfl⟩ := effect_error i s c h
  · exact absurd (hwf bad hmem) (Nat.not_lt.mpr hbad)
  all_goals simp

/-- Settles O38: the register checks come first, and no other check gives InvalidRegister. -/
theorem firstInvalidRegisterIsReported : Obligations.FirstInvalidRegisterIsReported := by
  refine ⟨exec_of_firstInvalid, ?_⟩
  intro i s t r idx hwf hf ht hr
  obtain he | ⟨c, hc, rfl⟩ := (exec_next i s t).mp ht
  · obtain ⟨hkeep, _, _⟩ := effect_keeps_status i s t he
    simp [hkeep, hf] at hr
  · obtain rfl : FaultRecord.mk c s.pc = r := by simpa using hr
    exact effect_error_ne_invalidRegister i s c idx hwf hc

/-! ### The event stream (R190) -/

/-- The state with another event stream. -/
def State.withEvents (s : State) (es : List Event) : State := { s with events := es }

/-- An instruction faults alike whatever the stream holds: no check reads it. -/
theorem effect_withEvents_error (i : Instr) (s : State) (c : FaultCause) (es : List Event)
    (h : effect i s = .error c) : effect i (s.withEvents es) = .error c := by
  cases i <;> simp only [effect] at h ⊢
  case hlt => cases h
  case ldi => exact (ldiEffect_error ..).mpr ((ldiEffect_error ..).mp h)
  case prn => exact (prnEffect_error ..).mpr ((prnEffect_error ..).mp h)
  case add | mul =>
    rw [aluEffect_error] at h ⊢
    exact (aluApply_error ..).mpr ((aluApply_error ..).mp h)
  case push => exact (pushEffect_error ..).mpr ((pushEffect_error _ s c).mp h)
  case pop => exact (popEffect_error ..).mpr ((popEffect_error _ s c).mp h)
  case call => exact (callEffect_error ..).mpr ((callEffect_error _ s c).mp h)
  case ret => exact (retEffect_error ..).mpr ((retEffect_error s c).mp h)

/-- An instruction that does not fault appends the same events to any stream and does the same to everything else: PRN
appends one event, the others none. -/
theorem effect_withEvents_ok (i : Instr) (s u : State) (h : effect i s = .ok u) :
    ∃ added, u.events = s.events ++ added ∧
      ∀ es, effect i (s.withEvents es) = .ok (u.withEvents (es ++ added)) := by
  cases i <;> simp only [effect] at h ⊢
  case prn opA =>
    obtain ⟨hA, rfl⟩ := (prnEffect_ok ..).mp h
    exact ⟨[.out (s.reg ⟨opA.toNat, hA⟩)], rfl, fun es => (prnEffect_ok ..).mpr ⟨hA, rfl⟩⟩
  all_goals (refine ⟨[], ?_⟩; simp only [List.append_nil])
  case hlt => cases h; exact ⟨rfl, fun es => rfl⟩
  case ldi => obtain ⟨hA, rfl⟩ := (ldiEffect_ok ..).mp h; exact ⟨rfl, fun es => (ldiEffect_ok ..).mpr ⟨hA, rfl⟩⟩
  case add | mul =>
    obtain ⟨_, hu, rfl⟩ := (aluEffect_ok ..).mp h
    obtain ⟨hA, hB, v, hv, rfl⟩ := (aluApply_ok ..).mp hu
    exact ⟨rfl, fun es => aluEffect_valid _ _ _ _ (s.withEvents es) v hA hB hv⟩
  case push =>
    obtain ⟨hA, hsp, rfl⟩ := (pushEffect_ok ..).mp h
    exact ⟨rfl, fun es => (pushEffect_ok ..).mpr ⟨hA, hsp, rfl⟩⟩
  case pop =>
    obtain ⟨hA, hsp, rfl⟩ := (popEffect_ok ..).mp h
    exact ⟨rfl, fun es => (popEffect_ok ..).mpr ⟨hA, hsp, rfl⟩⟩
  case call =>
    obtain ⟨hA, hsp, hpc, rfl⟩ := (callEffect_ok ..).mp h
    exact ⟨rfl, fun es => (callEffect_ok ..).mpr ⟨hA, hsp, hpc, rfl⟩⟩
  case ret =>
    obtain ⟨hsp, rfl⟩ := (retEffect_ok ..).mp h
    exact ⟨rfl, fun es => (retEffect_ok ..).mpr ⟨hsp, rfl⟩⟩

/-- The observer reads no event either (R191). -/
theorem observe_withEvents (p : Params) (s t : State) (es es' : List Event) :
    observe p (s.withEvents es) (t.withEvents es') = (observe p s t).withEvents es' := by
  by_cases h : p.trace ∧ t.fault = none
  · rw [observe, if_pos (show p.trace ∧ (t.withEvents es').fault = none from h), observe, if_pos h]
    rfl
  · rw [observe, if_neg (show ¬ (p.trace ∧ (t.withEvents es').fault = none) from h), observe, if_neg h]

/-- A cycle appends the same events to any stream and does the same to everything else: the fetch, the checks, the
effect and the observer read none of it. -/
theorem cycle_withEvents (p : Params) (s t : State) (h : cycle p s = .next t) :
    ∃ added, t.events = s.events ++ added ∧
      ∀ es, cycle p (s.withEvents es) = .next (t.withEvents (es ++ added)) := by
  cases hr : s.running with
  | false =>
    rw [cycle_stopped p s hr] at h
    cases h
    exact ⟨[], by simp, fun es => by rw [List.append_nil]; exact cycle_stopped p _ hr⟩
  | true =>
    obtain ⟨i, u, hi, hu, rfl⟩ | ⟨i, c, hi, hc, rfl⟩ | ⟨hpc, rfl⟩ | ⟨o, k, hpc, hl, _, hk, haddr, rfl⟩ |
      ⟨hpc, hl, hset, rfl⟩ | ⟨hpc, hl, hset, rfl⟩ := cycle_cases p s t hr h
    · obtain ⟨added, hadd, hes⟩ := effect_withEvents_ok i s u hu
      refine ⟨added, by rw [observe_events, hadd], fun es => ?_⟩
      rw [← observe_withEvents p s u es]
      exact cycle_of_fetch p _ _ i hr hi (exec_of_ok _ _ _ (hes es))
    · refine ⟨[], (List.append_nil _).symm, fun es => ?_⟩
      rw [List.append_nil, cycle_of_fetch p (s.withEvents es) _ i hr hi
        (exec_of_error _ _ c (effect_withEvents_error i s c es hc)), observe_faultedAs]
      rfl
    · refine ⟨[], (List.append_nil _).symm, fun es => ?_⟩
      rw [List.append_nil]
      exact cycle_fetchOpcode_fault p (s.withEvents es) hr hpc
    · refine ⟨[], (List.append_nil _).symm, fun es => ?_⟩
      rw [List.append_nil, cycle_fetchOperand_fault p (s.withEvents es) o k hr hpc hl hk haddr,
        show (s.withEvents es).pc.toNat + k = 256 from haddr]
      rfl
    · refine ⟨[.unrec s.pc], by simp, fun es => ?_⟩
      rw [← observe_withEvents p s _ es]
      exact cycle_unrecognized_lenient p (s.withEvents es) hr hpc hl hset
    · exact ⟨[.unrec s.pc], rfl, fun es => cycle_unrecognized_strict p (s.withEvents es) hr hpc hl hset⟩

/-- The events of a cycle: PRN's register value, the report of an unrecognized opcode, or none (R190). -/
theorem cycle_events (p : Params) (s t : State) (h : cycle p s = .next t) :
    t.events = s.events ∨
    (∃ opA, ∃ hA : opA.toNat < 8, s.fetch p.opcodes = .ok (.prn opA) ∧
      t.events = s.events ++ [.out (s.reg ⟨opA.toNat, hA⟩)]) ∨
    (s.pc.toNat ≤ 255 ∧ p.opcodes.lookup (s.mem.read s.pc.toNat) = none ∧ t.events = s.events ++ [.unrec s.pc]) := by
  cases hr : s.running with
  | false =>
    rw [cycle_stopped p s hr] at h
    cases h
    exact .inl rfl
  | true =>
    obtain ⟨i, u, hi, hu, rfl⟩ | ⟨_, _, _, _, rfl⟩ | ⟨_, rfl⟩ | ⟨_, _, _, _, _, _, _, rfl⟩ | ⟨hpc, hl, _, rfl⟩ |
      ⟨hpc, hl, _, rfl⟩ := cycle_cases p s t hr h
    · rw [observe_events]
      obtain hsame | ⟨opA, hA, rfl, hout⟩ := effect_events i s u hu
      · exact .inl hsame
      · exact .inr (.inl ⟨opA, hA, hi, hout⟩)
    · exact .inl rfl
    · exact .inl rfl
    · exact .inl rfl
    · exact .inr (.inr ⟨hpc, hl, by simp⟩)
    · exact .inr (.inr ⟨hpc, hl, rfl⟩)

/-- Settles O24: the events a cycle adds are the same from every stream, so they are the given ones. -/
theorem eventStreamIsAppendedAndNeverReadBack : Obligations.EventStreamIsAppendedAndNeverReadBack := by
  refine ⟨cycle_events, fun p s t before added h hadded => ?_⟩
  obtain ⟨added', hadded', hes⟩ := cycle_withEvents p s t h
  obtain rfl : added' = added := List.append_cancel_left (hadded'.symm.trans hadded)
  exact hes before

/-! ### The order of the checks (R186) -/

/-- A row declares opA unless it is HLT or RET (R63). -/
theorem one_le_operandCount_iff (o : Opcode) : 1 ≤ o.operandCount ↔ o ∉ [.hlt, .ret] := by cases o <;> decide

/-- A row declares opB exactly where it is LDI, ADD or MUL (R63). -/
theorem two_le_operandCount_iff (o : Opcode) : 2 ≤ o.operandCount ↔ o ∈ [.ldi, .add, .mul] := by
  cases o <;> decide

/-- An operand of the fetched instruction is a byte in the address space (R82). -/
theorem fetched_operand {m : OpcodeMap} {s : State} {i : Instr} (h : s.fetch m = .ok i) {k : Nat} {b : Byte}
    (hk : i.operands[k]? = some b) : s.pc.toNat + (k + 1) ≤ 255 ∧ s.mem.read (s.pc.toNat + (k + 1)) = b := by
  obtain ⟨hend, _, hbytes⟩ := fetch_ok m s i h
  obtain ⟨hlt, rfl⟩ := List.getElem?_eq_some_iff.mp hk
  have hcount : k < i.opcode.operandCount := by simpa using hlt
  refine ⟨?_, by rw [← hbytes k hlt, Nat.add_assoc, Nat.add_comm 1 k]⟩
  simp only [Instr.length, Opcode.length] at hend
  omega

/-- POP's faults in the terms of R141: the SP it increments is the old one, or for R7 the popped byte. -/
theorem popEffect_error_iff (opA : Byte) (s : State) (c : FaultCause) :
    popEffect opA s = .error c ↔
      (8 ≤ opA.toNat ∧ c = .invalidRegister opA) ∨
      (opA.toNat < 8 ∧ (if opA = 7 then s.load s.sp = 255 else s.sp = 255) ∧ c = .outOfBounds .stackUnderflow 256) := by
  rw [popEffect_error]
  refine or_congr_right ?_
  rw [← exists_prop]
  refine exists_congr fun h => ?_
  rw [popped_sp]
  split_ifs <;> rfl

/-- Once an instruction is fetched, the checks left in R186's list are those of its own effect, in the same order. -/
theorem firstFault_of_fetch (p : Params) (s : State) (i : Instr) (h : s.fetch p.opcodes = .ok i) (c : FaultCause) :
    firstFault p s = some c ↔ effect i s = .error c := by
  obtain ⟨hend, hl, -⟩ := fetch_ok _ s i h
  have hpc : ¬ 255 < s.pc.toNat := by have := i.length_bounds; omega
  simp only [firstFault, if_neg hpc, hl]
  cases i <;> simp only [Instr.opcode, effect]
  case hlt => simp
  case ret => simp [@eq_comm _ c, retEffect_error]
  case prn opA =>
    obtain ⟨hA, rfl⟩ := fetched_operand h (k := 0) rfl
    simp [@eq_comm _ c, prnEffect_error, Nat.not_lt.mpr hA]
  case ldi opA opB =>
    obtain ⟨hA, rfl⟩ := fetched_operand h (k := 0) rfl
    obtain ⟨hB, _⟩ := fetched_operand h (k := 1) rfl
    simp [@eq_comm _ c, ldiEffect_error, Nat.not_lt.mpr hA, Nat.not_lt.mpr hB]
  case add opA opB | mul opA opB =>
    obtain ⟨hA, rfl⟩ := fetched_operand h (k := 0) rfl
    obtain ⟨hB, rfl⟩ := fetched_operand h (k := 1) rfl
    simp [ite_eq_iff, @eq_comm _ c, aluEffect_error, aluApply_error, Nat.not_lt.mpr hA, Nat.not_lt.mpr hB]
  case push opA =>
    obtain ⟨hA, rfl⟩ := fetched_operand h (k := 0) rfl
    simp [ite_eq_iff, @eq_comm _ c, pushEffect_error, Nat.not_lt.mpr hA]
  case pop opA =>
    obtain ⟨hA, rfl⟩ := fetched_operand h (k := 0) rfl
    simp [ite_eq_iff, @eq_comm _ c, popEffect_error_iff, Nat.not_lt.mpr hA]
  case call opA =>
    obtain ⟨hA, rfl⟩ := fetched_operand h (k := 0) rfl
    simp [ite_eq_iff, @eq_comm _ c, callEffect_error, Nat.not_lt.mpr hA, and_or_left]

/-- The declared operand whose address is 256 is the first check that fails (R82, R186). -/
theorem firstFault_missingOperand (p : Params) (s : State) (o : Opcode) (k : Nat) (hpc : s.pc.toNat ≤ 255)
    (hl : p.opcodes.lookup (s.mem.read s.pc.toNat) = some o) (h1 : 1 ≤ k) (hk : k ≤ o.operandCount)
    (haddr : s.pc.toNat + k = 256) : firstFault p s = some (.outOfBounds .fetchOperand 256) := by
  have hA : o ∉ [.hlt, .ret] := (one_le_operandCount_iff o).mp (h1.trans hk)
  have h2 := o.operandCount_le_two
  obtain rfl | rfl : k = 1 ∨ k = 2 := by omega
  · have h255 : s.pc.toNat = 255 := by omega
    simp only [firstFault, h255] at hl ⊢
    simp only [hl]
    rw [if_neg (by omega), if_pos ⟨hA, by omega⟩]
    rfl
  · have h254 : s.pc.toNat = 254 := by omega
    have hB : o ∈ [.ldi, .add, .mul] := (two_le_operandCount_iff o).mp hk
    simp only [firstFault, h254] at hl ⊢
    simp only [hl]
    rw [if_neg (by omega), if_neg (by omega), if_pos ⟨hB, by omega⟩]
    rfl

/-- Settles O22: each way a cycle can end decides which check of R186's list is the first to fail, or that none does. -/
theorem faultIsTheFirstFailingCheck : Obligations.FaultIsTheFirstFailingCheck := by
  intro p s t hr hf h
  obtain ⟨i, u, hi, hu, rfl⟩ | ⟨i, c, hi, hc, rfl⟩ | ⟨hpc, rfl⟩ | ⟨o, k, hpc, hl, h1, hk, haddr, rfl⟩ |
    ⟨hpc, hl, hset, rfl⟩ | ⟨hpc, hl, hset, rfl⟩ := cycle_cases p s t hr h
  · obtain ⟨hkeep, _, _⟩ := effect_keeps_status i s u hu
    have hnone : firstFault p s = none := Option.eq_none_iff_forall_ne_some.mpr fun c hc => by
      simp [(firstFault_of_fetch p s i hi c).mp hc] at hu
    rw [observe_fault, hkeep, hf, hnone]
    rfl
  · rw [(firstFault_of_fetch p s i hi c).mpr hc]
    rfl
  · simp [firstFault, hpc]
  · rw [firstFault_missingOperand p s o k hpc hl h1 hk haddr]
    rfl
  · simp [firstFault, Nat.not_lt.mpr hpc, hl, hset, hf]
  · simp [firstFault, Nat.not_lt.mpr hpc, hl, hset]

end Sys2Proof.Machine

namespace Sys2Proof.Machine

/-! ### The loaded program (R211, R213) -/

/-- The loader accepts a program exactly when it fits, and then changes the state by writing its bytes only (R211). -/
theorem State.loadProgram_ok (s t : State) (bytes : List Byte) :
    s.loadProgram bytes = .ok t ↔ bytes.length ≤ 256 ∧ t = s.loadBytes bytes := by
  simp only [State.loadProgram, Config.maxProgramBytes]
  split
  next hlong => simp [Nat.not_le.mpr hlong]
  next hfits => simp [Nat.not_lt.mp hfits, eq_comm]

/-- After a load the program's bytes lie from address 0, and every other cell is as before (R211). -/
theorem State.loadBytes_read (s : State) (bytes : List Byte) (a : Nat) :
    (s.loadBytes bytes).mem.read a = if h : a < bytes.length then bytes[a] else s.mem.read a := by
  rw [State.loadBytes_mem, Memory.read_writeBytes]
  simp [Config.loadBase]

/-- Settles O5: the load writes only memory, and the PC of reset is the address the bytes are written from. -/
theorem runStartsAtAddressZero : Obligations.RunStartsAtAddressZero := by
  intro bytes t h
  obtain ⟨hlen, rfl⟩ := (State.loadProgram_ok ..).mp h
  refine ⟨rfl, rfl, rfl, rfl, fun k hk => ?_, fun a ha => ?_⟩
  · have hpc : (State.reset.loadBytes bytes).pc.toNat + k = k := Nat.zero_add k
    rw [State.fetchByte_eq, hpc, if_pos (by omega), State.loadBytes_read, dif_pos hk]
  · rw [State.loadBytes_read, dif_neg (by omega), State.reset_read]

end Sys2Proof.Machine

namespace Sys2Proof.Machine

/-! ### Decoding and encoding (R60 to R67) -/

/-- Settles O8: the round trip of every row, and the spec's map is admissible. -/
theorem decodeInvertsEncode : Obligations.DecodeInvertsEncode :=
  ⟨defaultOpcodes_wf, decodeWith_encodeWith_append⟩

/-- The list decoder answers what the reader decoder answers on that list, with the bytes after the instruction. -/
theorem decodeWith_ok (m : OpcodeMap) (bytes : List Byte) (i : Instr) (rest : List Byte) :
    decodeWith m bytes = .ok (i, rest) ↔
      decodeFrom m (fun k => bytes[k]?) = .ok i ∧ bytes.drop i.length = rest := by
  unfold decodeWith
  cases decodeFrom m fun k => bytes[k]? with
  | error r => simp
  | ok j =>
    simp only [Except.ok.injEq, Prod.mk.injEq]
    exact and_congr_right fun hij => by rw [hij]

/-- Bytes that the decoder reads as an instruction begin with that instruction's encoding: the opcode byte is its row's,
and the operand bytes are the ones read after it (R60, R66). -/
theorem bytes_begin_with_encoding (m : OpcodeMap) (bytes : List Byte) (i : Instr)
    (h : decodeFrom m (fun k => bytes[k]?) = .ok i) : encodeWith m i <+: bytes := by
  obtain ⟨op, hop, hrow, hoperands⟩ := decodeFrom_ok m _ i h
  refine List.prefix_iff_getElem?.mpr fun k hk => ?_
  cases k with
  | zero => simp [encodeWith, hop, m.byteOf_of_lookup op i.opcode hrow]
  | succ k => exact hoperands k (by simpa [encodeWith] using hk)

/-- Settles O9: the bytes begin with the encoding, and the rest is what follows that many bytes. -/
theorem decodedBytesAreTheEncoding : Obligations.DecodedBytesAreTheEncoding := by
  intro m bytes i rest h
  obtain ⟨hread, rfl⟩ := (decodeWith_ok m bytes i rest).mp h
  rw [← encodeWith_length m i]
  exact (List.prefix_iff_eq_append.mp (bytes_begin_with_encoding m bytes i hread)).symm

/-- The decoder rejects an opcode byte by name exactly when that byte is the one read and is in no row (R67). -/
theorem decodeFrom_unrecognized_iff (m : OpcodeMap) (f : Nat → Option Byte) (op : Byte) :
    decodeFrom m f = .error (.unrecognized op) ↔ f 0 = some op ∧ m.lookup op = none := by
  refine ⟨fun h => ?_, fun ⟨h0, hl⟩ => decodeFrom_unrecognized m f op h0 hl⟩
  obtain ⟨hr, _⟩ | ⟨op', hr, h0, hl⟩ | ⟨_, _, _, hr, _⟩ := decodeFrom_error m f _ h
  · cases hr
  · cases hr
    exact ⟨h0, hl⟩
  · cases hr

/-- Settles O11: an accepted decode reads the opcode and the declared operands, a rejected opcode the opcode only. -/
theorem undeclaredBytesAreNotRead : Obligations.UndeclaredBytesAreNotRead := by
  refine fun m f g => ⟨fun i hi hfg => ?_, fun op hop hfg => ?_⟩
  · obtain ⟨op, h0, hl, _⟩ := decodeFrom_ok m f i hi
    rw [← hi]
    refine decodeFrom_congr m f g op i.opcode h0 hl fun k hk => hfg k ?_
    simp only [Instr.length, Opcode.length]
    omega
  · rw [decodeFrom_unrecognized_iff] at hop ⊢
    rwa [hfg]

/-- Settles O7: each row is the encoding of its instruction, so it decodes back. -/
theorem opcodeMapRowsDecode : Obligations.OpcodeMapRowsDecode :=
  ⟨fun a b => decode_encode_append (.ldi a b), fun a => decode_encode_append (.prn a),
    fun a b => decode_encode_append (.add a b), fun a b => decode_encode_append (.mul a b),
    fun a => decode_encode_append (.push a), fun a => decode_encode_append (.pop a),
    fun a => decode_encode_append (.call a), decode_encode_append .hlt, decode_encode_append .ret⟩

/-- A list whose first byte is in no row is rejected with that byte, and only such a list (R67). -/
theorem decodeWith_unrecognized_iff (m : OpcodeMap) (op : Byte) (rest : List Byte) :
    decodeWith m (op :: rest) = .error (.unrecognized op) ↔ m.lookup op = none := by
  have hread := decodeFrom_unrecognized_iff m (fun k => (op :: rest)[k]?) op
  simp only [List.getElem?_cons_zero, true_and] at hread
  rw [← hread]
  unfold decodeWith
  cases decodeFrom m fun k => (op :: rest)[k]? <;> simp

/-- A byte is in no row exactly when it is not among the rows' opcode bytes. -/
theorem lookup_eq_none_iff_not_mem (m : OpcodeMap) (op : Byte) :
    m.lookup op = none ↔ op ∉ Opcode.all.map m.byteOf := by
  rw [m.lookup_eq_none, List.mem_map, not_exists]
  exact forall_congr' fun o => by simp [o.mem_all]

/-- The byte values that are some row's opcode are the nine rows' opcodes, each once (R65). -/
theorem recognized_perm (m : OpcodeMap) (hm : m.wf) :
    ((List.range 256).filter fun n => ¬ m.lookup (BitVec.ofNat 8 n) = none).Perm
      (Opcode.all.map fun o => (m.byteOf o).toNat) := by
  have hrows : Function.Injective fun o => (m.byteOf o).toNat :=
    fun o o' h => m.byteOf_injective hm o o' (BitVec.eq_of_toNat_eq h)
  refine (List.perm_ext_iff_of_nodup (List.nodup_range.filter _) (List.Nodup.map hrows (by decide))).mpr fun n => ?_
  simp only [List.mem_filter, List.mem_range, decide_eq_true_eq, lookup_eq_none_iff_not_mem, not_not, List.mem_map]
  constructor
  · rintro ⟨hn, o, ho, hbyte⟩
    exact ⟨o, ho, by rw [hbyte, BitVec.toNat_ofNat, Nat.mod_eq_of_lt hn]⟩
  · rintro ⟨o, ho, rfl⟩
    exact ⟨(m.byteOf o).isLt, o, ho, by simp⟩

/-- Under every admissible map nine of the 256 byte values are opcodes, and the other 247 are unrecognized (R65, R67). -/
theorem unrecognized_count (m : OpcodeMap) (hm : m.wf) :
    ((List.range 256).filter fun n => m.lookup (BitVec.ofNat 8 n) = none).length = 247 := by
  have hsplit := List.length_eq_length_filter_add (l := List.range 256) fun n =>
    decide (m.lookup (BitVec.ofNat 8 n) = none)
  have hrows := (recognized_perm m hm).length_eq
  simp only [decide_not, List.length_map, List.length_range] at hsplit hrows
  rw [hrows] at hsplit
  have : Opcode.all.length = 9 := rfl
  omega

/-- Settles O10: the nine listed values are the opcode bytes of the spec's map. -/
theorem unrecognizedBytesAreTheRest : Obligations.UnrecognizedBytesAreTheRest := by
  refine ⟨fun op rest => ?_, unrecognized_count _ defaultOpcodes_wf, by decide, by decide⟩
  exact (decodeWith_unrecognized_iff defaultOpcodes op rest).trans (lookup_eq_none_iff_not_mem defaultOpcodes op)

end Sys2Proof.Machine

namespace Sys2Proof.Machine

/-! ### A cycle's answer (R80, R85) -/

/-- The instruction part of a cycle answers a next state, whatever the fetch found. -/
theorem dispatch_answers_next (p : Params) (s : State) : ∃ t, s.dispatch p = .next t := by
  unfold State.dispatch
  cases s.fetch p.opcodes with
  | ok i => exact exec_answers_next i s
  | error r => exact ⟨_, rfl⟩

/-- A cycle of a running core is its instruction part and then the observer (R80). -/
theorem cycle_of_dispatch (p : Params) (s t : State) (hr : s.running = true) (hd : s.dispatch p = .next t) :
    cycle p s = .next (observe p s t) := by
  simp [cycle, hr, hd]

/-- A cycle answers a next state: a stopped core its own, a running one what its instruction part gives. -/
theorem cycle_answers_next (p : Params) (s : State) : ∃ t, cycle p s = .next t := by
  cases hr : s.running with
  | false => exact ⟨s, cycle_stopped p s hr⟩
  | true =>
    obtain ⟨t, ht⟩ := dispatch_answers_next p s
    exact ⟨_, cycle_of_dispatch p s t hr ht⟩

/-- Settles O18: faults are next states, and no arm refuses. -/
theorem everyCycleAnswersANextState : Obligations.EveryCycleAnswersANextState := cycle_answers_next

/-! ### Faults (R181 to R184) -/

/-- A cycle that faults leaves R184's state, taken from the state before it or, in the strict setting only, from that
state with the report of the unrecognized opcode (R88). -/
theorem cycle_fault_cases (p : Params) (s t : State) (r : FaultRecord) (hr : s.running = true) (hf : s.fault = none)
    (h : cycle p s = .next t) (ht : t.fault = some r) :
    (t = faultedAs s r.cause ∧ ∀ op, r.cause ≠ .unrecognizedInstruction op) ∨
    (t = faultedAs (s.emit (.unrec s.pc)) r.cause ∧ ∃ op, r.cause = .unrecognizedInstruction op) := by
  obtain ⟨i, u, _, hu, rfl⟩ | ⟨i, c, _, hc, rfl⟩ | ⟨_, rfl⟩ | ⟨_, _, _, _, _, _, _, rfl⟩ | ⟨_, _, _, rfl⟩ |
    ⟨_, _, _, rfl⟩ := cycle_cases p s t hr h
  · obtain ⟨hkeep, _, _⟩ := effect_keeps_status i s u hu
    simp [hkeep, hf] at ht
  · cases ht
    refine .inl ⟨rfl, fun op => ?_⟩
    obtain ⟨_, _, _, rfl⟩ | ⟨_, rfl⟩ | rfl | ⟨_, _, _, rfl⟩ := effect_error i s c hc <;> simp
  · cases ht
    exact .inl ⟨rfl, by simp⟩
  · cases ht
    exact .inl ⟨rfl, by simp⟩
  · simp [hf] at ht
  · cases ht
    exact .inr ⟨rfl, _, rfl⟩

/-- A fault stops the core, and its record and its PC are the old PC (R31, R184). -/
theorem cycle_fault_stops (p : Params) (s t : State) (r : FaultRecord) (hr : s.running = true) (hf : s.fault = none)
    (h : cycle p s = .next t) (ht : t.fault = some r) : t.running = false ∧ r.pc = s.pc ∧ t.pc = s.pc := by
  obtain ⟨rfl, _⟩ | ⟨rfl, _⟩ := cycle_fault_cases p s t r hr hf h ht <;>
    exact ⟨rfl, congrArg FaultRecord.pc (Option.some.inj ht.symm), rfl⟩

/-- Settles O21: both forms of a fault's state keep the fields named, and differ in the report; the core has stopped. -/
theorem faultsArePrecise : Obligations.FaultsArePrecise := by
  intro p s t r hr hf h ht
  obtain ⟨hstop, hrpc, hpc⟩ := cycle_fault_stops p s t r hr hf h ht
  refine ⟨hstop, hrpc, hpc, ?_⟩
  obtain ⟨rfl, hother⟩ | ⟨rfl, op, hstrict⟩ := cycle_fault_cases p s t r hr hf h ht
  · exact ⟨fun _ => rfl, fun _ => rfl, rfl, fun _ => rfl, fun op hop => absurd hop (hother op), cycle_stopped p _ rfl⟩
  · exact ⟨fun _ => rfl, fun _ => rfl, rfl, fun hother => absurd hstrict (hother op), fun _ _ => rfl,
      cycle_stopped p _ rfl⟩

end Sys2Proof.Machine

namespace Sys2Proof.Machine

/-! ### The invariant -/

/-- An instruction fetched within 0..255 faults with a cause and value the invariant allows: CALL's return address can
pass 255 only by being 256 (R181, R182). -/
theorem effect_error_legalCause (p : Params) (i : Instr) (s : State) (c : FaultCause)
    (hend : s.pc.toNat + i.length ≤ 256) (h : effect i s = .error c) : legalCause p c := by
  obtain ⟨idx, _, hidx, rfl⟩ | ⟨_, rfl⟩ | rfl | ⟨opA, rfl, hpc, rfl⟩ := effect_error i s c h
  · exact hidx
  · rfl
  · rfl
  · have hlen : (Instr.call opA).length = 2 := rfl
    simp only [legalCause]
    omega

/-- From a PC of at most 256 a cycle faults with a cause and value the invariant allows (R181 to R183, R88). -/
theorem cycle_legalCause (p : Params) (s t : State) (r : FaultRecord) (hr : s.running = true) (hf : s.fault = none)
    (hpc : s.pc.toNat ≤ 256) (h : cycle p s = .next t) (ht : t.fault = some r) : legalCause p r.cause := by
  obtain ⟨i, u, _, hu, rfl⟩ | ⟨i, c, hi, hc, rfl⟩ | ⟨habove, rfl⟩ | ⟨_, _, _, _, _, _, _, rfl⟩ | ⟨_, _, _, rfl⟩ |
    ⟨_, hl, hset, rfl⟩ := cycle_cases p s t hr h
  · obtain ⟨hkeep, _, _⟩ := effect_keeps_status i s u hu
    simp [hkeep, hf] at ht
  · cases ht
    obtain ⟨hend, _, _⟩ := fetch_ok _ s i hi
    exact effect_error_legalCause p i s c hend hc
  · cases ht
    simp only [legalCause]
    omega
  · cases ht
    rfl
  · simp [hf] at ht
  · cases ht
    exact ⟨hset, hl⟩

/-- The memory after a cycle: as before, or with one byte stored below the stack top (R40). -/
theorem cycle_memory (p : Params) (s t : State) (h : cycle p s = .next t) :
    t.mem = s.mem ∨ ∃ v, t.mem = s.mem.write (s.sp - 1).toNat v := by
  cases hr : s.running with
  | false =>
    rw [cycle_stopped p s hr] at h
    cases h
    exact .inl rfl
  | true =>
    obtain ⟨i, u, _, hu, rfl⟩ | ⟨_, _, _, _, rfl⟩ | ⟨_, rfl⟩ | ⟨_, _, _, _, _, _, _, rfl⟩ | ⟨_, _, _, rfl⟩ |
      ⟨_, _, _, rfl⟩ := cycle_cases p s t hr h
    · rw [observe_mem]
      exact (effect_memory i s u hu).imp_right fun ⟨_, _, hwrite⟩ => hwrite
    · exact .inl rfl
    · exact .inl rfl
    · exact .inl rfl
    · exact .inl (by simp)
    · exact .inl rfl

/-- A cycle keeps memory in its canonical form: a stored byte's address is a byte (R40). -/
theorem cycle_keeps_memory_wf (p : Params) (s t : State) (hs : s.mem.wf) (h : cycle p s = .next t) : t.mem.wf := by
  obtain hsame | ⟨v, hwrite⟩ := cycle_memory p s t h
  · rwa [hsame]
  · rw [hwrite]
    exact s.mem.wf_write _ v (s.sp - 1).isLt hs

/-- A cycle reports an unrecognized opcode at an address up to 255 only (R190). -/
theorem cycle_keeps_reports (p : Params) (s t : State) (hs : ∀ a, Event.unrec a ∈ s.events → a.toNat ≤ 255)
    (h : cycle p s = .next t) (a : Pc) (ha : .unrec a ∈ t.events) : a.toNat ≤ 255 := by
  obtain hsame | ⟨_, _, _, hout⟩ | ⟨hpc, _, hreport⟩ := cycle_events p s t h
  · exact hs a (hsame ▸ ha)
  · exact hs a (by simpa [hout] using ha)
  · obtain hold | rfl : .unrec a ∈ s.events ∨ a = s.pc := by simpa [hreport] using ha
    · exact hs a hold
    · exact hpc

/-- A cycle keeps the invariant, field by field: the ranges by their own lemmas, and the fault record by what a fault of
a running core leaves. -/
theorem cycle_keeps_inv (p : Params) (s t : State) (hs : Inv p s) (h : cycle p s = .next t) : Inv p t := by
  cases hr : s.running with
  | false =>
    rw [cycle_stopped p s hr] at h
    cases h
    exact hs
  | true =>
    have hf := hs.running hr
    exact {
      memory := cycle_keeps_memory_wf p s t hs.memory h
      pcRange := cycle_keeps_pcRange p s t hs.pcRange h
      running := fun hrun => Option.eq_none_iff_forall_ne_some.mpr fun r ht => by
        obtain ⟨hstop, _, _⟩ := cycle_fault_stops p s t r hr hf h ht
        simp [hstop] at hrun
      record := fun r ht => by
        obtain ⟨_, hrpc, hpc⟩ := cycle_fault_stops p s t r hr hf h ht
        exact ⟨hrpc.trans hpc.symm, cycle_legalCause p s t r hr hf hs.pcRange h ht⟩
      reports := cycle_keeps_reports p s t hs.reports h }

/-- Settles O19, by the lemmas about a cycle's faults, memory, PC and reports. -/
theorem cycleKeepsInvariant : Obligations.CycleKeepsInvariant := cycle_keeps_inv

/-- At reset memory is empty, the PC is 0, and there is neither a fault record nor an event (R210). -/
theorem inv_reset (p : Params) : Inv p State.reset where
  memory := Memory.wf_reset
  pcRange := by decide
  running := fun _ => rfl
  record := by simp [State.reset]
  reports := by simp [State.reset]

/-- Settles O2, the base case of O20. -/
theorem resetMeetsInvariant : Obligations.ResetMeetsInvariant := inv_reset

/-- Loading a program that fits keeps the invariant: it writes memory only, within 0..255 (R211). -/
theorem Inv.loadBytes {p : Params} {s : State} (hs : Inv p s) (bytes : List Byte) (hlen : bytes.length ≤ 256) :
    Inv p (s.loadBytes bytes) where
  memory := s.mem.wf_writeBytes _ bytes (by simpa [Config.loadBase] using hlen) hs.memory
  pcRange := hs.pcRange
  running := hs.running
  record := hs.record
  reports := hs.reports

/-- Settles O20: the invariant holds once the program is loaded, and every cycle keeps it. -/
theorem reachableStatesMeetInvariant : Obligations.ReachableStatesMeetInvariant := by
  intro p s h
  induction h with
  | loaded bytes t ht =>
    obtain ⟨hlen, rfl⟩ := (State.loadProgram_ok ..).mp ht
    exact (inv_reset p).loadBytes bytes hlen
  | cycle s t _ hcycle ih => exact cycle_keeps_inv p s t ih hcycle

end Sys2Proof.Machine

namespace Sys2Proof.Machine

/-! ### The trace port (R191) -/

/-- The trace after a cycle: one record more where the port is present and the cycle did not fault. -/
theorem cycle_trace (p : Params) (s t : State) (hr : s.running = true) (h : cycle p s = .next t) :
    t.trace = if p.trace ∧ t.fault = none then s.trace ++ [traceRecord s t] else s.trace := by
  obtain ⟨i, u, _, hu, rfl⟩ | ⟨_, _, _, _, rfl⟩ | ⟨_, rfl⟩ | ⟨_, _, _, _, _, _, _, rfl⟩ | ⟨_, _, _, rfl⟩ |
    ⟨_, _, _, rfl⟩ := cycle_cases p s t hr h
  · obtain ⟨_, hkeep, _⟩ := effect_keeps_status i s u hu
    simp only [observe_trace, observe_fault, hkeep, traceRecord, observe_regs]
  · simp [faultedAs]
  · simp [faultedAs]
  · simp [faultedAs]
  · simp only [observe_trace, observe_fault, traceRecord, observe_regs, State.setPc_trace, State.emit_trace]
  · simp [faultedAs]

/-- The bytes of a record are those a fetch sees at the PC and the two addresses after it, before the cycle (R191, log
entry 6). -/
theorem traceRecord_bytes (s t : State) : (traceRecord s t).bytes = [0, 1, 2].map fun k =>
    if s.pc.toNat + k ≤ 255 then some (s.mem.read (s.pc.toNat + k)) else none := by
  simp only [traceRecord, State.fetchByte_eq, List.map_cons, List.map_nil]

/-- Settles O25: whether a record is added is decided by the port and the fault record after the cycle. -/
theorem traceRecordsEveryCycleThatDoesNotFault : Obligations.TraceRecordsEveryCycleThatDoesNotFault := by
  intro p s t hr _ h
  have htrace := cycle_trace p s t hr h
  refine ⟨fun hport hnone => ⟨traceRecord s t, ?_, rfl, rfl, traceRecord_bytes s t⟩, fun hnot => ?_⟩
  · rwa [if_pos ⟨hport, hnone⟩] at htrace
  · rwa [if_neg] at htrace
    rintro ⟨hport, hnone⟩
    obtain hoff | hfault := hnot
    · simp [hoff] at hport
    · exact hfault hnone

/-- The state with another trace. -/
def State.withTrace (s : State) (tr : List TraceRecord) : State := { s with trace := tr }

/-- States that agree on everything but the trace are one state with two traces. -/
theorem eq_withTrace_of_sameButTrace {s u : State} (h : sameButTrace s u) : u = s.withTrace u.trace := by
  obtain ⟨hm, hr, hp, hu, hf, he⟩ := h
  cases u
  simp_all [State.withTrace]

/-- The ALU reads no trace either. -/
theorem aluEffect_withTrace (tag : AluTag) (o : Opcode) (opA opB : Byte) (s : State) (tr : List TraceRecord) :
    aluEffect tag o opA opB (s.withTrace tr) = (aluEffect tag o opA opB s).map fun t => t.withTrace tr := by
  have hreg : ∀ j, (s.withTrace tr).reg j = s.reg j := fun _ => rfl
  unfold aluEffect aluApply
  cases regOperand opA with
  | error c => rfl
  | ok d =>
    cases regOperand opB with
    | error c => rfl
    | ok r =>
      simp only [hreg]
      cases aluValue tag (s.reg d) (s.reg r) <;> rfl

/-- An instruction reads no trace: it faults alike, and does the same to everything but the trace it is given. -/
theorem effect_withTrace (i : Instr) (s : State) (tr : List TraceRecord) :
    effect i (s.withTrace tr) = (effect i s).map fun t => t.withTrace tr := by
  have hdown : (s.withTrace tr).spDown = s.spDown := rfl
  have hup : (s.withTrace tr).spUp = s.spUp := rfl
  have hback : (s.withTrace tr).returnAddress = s.returnAddress := rfl
  cases i with
  | hlt => rfl
  | ldi opA opB => simp only [effect, ldiEffect]; cases regOperand opA <;> rfl
  | prn opA => simp only [effect, prnEffect]; cases regOperand opA <;> rfl
  | add opA opB => exact aluEffect_withTrace .add .add opA opB s tr
  | mul opA opB => exact aluEffect_withTrace .mul .mul opA opB s tr
  | push opA =>
    simp only [effect, pushEffect, hdown]
    cases regOperand opA <;> cases s.spDown <;> rfl
  | pop opA =>
    simp only [effect, popEffect]
    cases regOperand opA with
    | error c => rfl
    | ok r =>
      have hpopped : ((s.withTrace tr).setReg r ((s.withTrace tr).load (s.withTrace tr).sp)).spUp =
        (s.setReg r (s.load s.sp)).spUp := rfl
      simp only [hpopped]
      cases (s.setReg r (s.load s.sp)).spUp <;> rfl
  | call opA =>
    simp only [effect, callEffect, hdown, hback]
    cases regOperand opA <;> cases s.spDown <;> cases s.returnAddress <;> rfl
  | ret =>
    simp only [effect, retEffect, hup]
    cases s.spUp <;> rfl

/-- The instruction part of a cycle reads neither the trace nor whether the port is present. -/
theorem dispatch_withTrace (p q : Params) (s t : State) (tr : List TraceRecord) (hop : q.opcodes = p.opcodes)
    (hset : q.haltOnUnrecognized = p.haltOnUnrecognized) (h : s.dispatch p = .next t) :
    (s.withTrace tr).dispatch q = .next (t.withTrace tr) := by
  have hfetch : (s.withTrace tr).fetch q.opcodes = s.fetch p.opcodes := by rw [hop]; rfl
  unfold State.dispatch at h ⊢
  rw [hfetch]
  cases hf : s.fetch p.opcodes with
  | ok i =>
    simp only [hf] at h ⊢
    obtain he | ⟨c, hc, rfl⟩ := (exec_next i s t).mp h
    · exact exec_of_ok i _ _ (by rw [effect_withTrace, he]; rfl)
    · exact exec_of_error i _ c (by rw [effect_withTrace, hc]; rfl)
  | error r =>
    simp only [hf] at h ⊢
    cases h
    cases r with
    | noOpcode => rfl
    | missingOperand k => rfl
    | unrecognized op =>
      simp only [State.rejected, State.skipUnrecognized, hset]
      split <;> rfl

/-- Settles O26: both cycles are the same instruction part, and the observers change the trace only. -/
theorem traceDoesNotAffectExecution : Obligations.TraceDoesNotAffectExecution := by
  intro p q s u t hop hset _ hsame h
  cases hr : s.running with
  | false =>
    rw [cycle_stopped p s hr] at h
    cases h
    exact ⟨u, cycle_stopped q u (by rw [eq_withTrace_of_sameButTrace hsame]; exact hr), hsame⟩
  | true =>
    obtain ⟨v, hv⟩ := dispatch_answers_next p s
    rw [cycle_of_dispatch p s v hr hv] at h
    cases h
    rw [eq_withTrace_of_sameButTrace hsame]
    refine ⟨_, cycle_of_dispatch q _ _ hr (dispatch_withTrace p q s v u.trace hop hset hv), ?_⟩
    simp [sameButTrace, State.withTrace]

end Sys2Proof.Machine

namespace Sys2Proof.Machine

/-! ### Runs (R85, R89, R215) -/

/-- A run of a stopped core changes nothing under any ceiling (R85). -/
theorem runUpTo_stopped (p : Params) (n : Nat) (s : State) (hr : s.running = false) : runUpTo p n s = .next s := by
  cases n <;> simp [runUpTo, hr]

/-- A run of a running core begins with one cycle (R89). -/
theorem runUpTo_succ (p : Params) (n : Nat) (s t : State) (hr : s.running = true) (h : cycle p s = .next t) :
    runUpTo p (n + 1) s = runUpTo p n t := by
  simp [runUpTo, hr, h]

/-- Settles O17: neither a cycle nor a run does anything to a stopped core. -/
theorem stoppedCoreKeepsItsState : Obligations.StoppedCoreKeepsItsState :=
  fun p s hr => ⟨cycle_stopped p s hr, fun n => runUpTo_stopped p n s hr⟩

/-- Settles O27, by induction on the lower ceiling: the runs go on alike until the core stops. -/
theorem endedRunIgnoresTheCeiling : Obligations.EndedRunIgnoresTheCeiling := by
  intro p n
  induction n with
  | zero =>
    intro m s t _ h hend
    cases h
    exact runUpTo_stopped p m s hend
  | succ n ih =>
    intro m s t hnm h hend
    cases hr : s.running with
    | false =>
      rw [runUpTo_stopped p _ s hr] at h ⊢
      exact h
    | true =>
      obtain ⟨u, hu⟩ := cycle_answers_next p s
      obtain ⟨k, rfl⟩ : ∃ k, m = k + 1 := ⟨m - 1, by omega⟩
      rw [runUpTo_succ p _ s u hr hu] at h ⊢
      exact ih k u t (by omega) h hend

end Sys2Proof.Machine

namespace Sys2Proof.Machine

/-! ### What instructions leave alone (R40, R84) -/

/-- Settles O39: of the two ways an instruction can move the PC, the jump is CALL's and RET's. -/
theorem onlyCallAndRetRedirectThePc : Obligations.OnlyCallAndRetRedirectThePc := by
  intro i s t hcall hret _ h hnone
  obtain he | ⟨c, _, rfl⟩ := (exec_next i s t).mp h
  · obtain hadv | ⟨⟨opA, rfl⟩ | rfl, _⟩ := effect_pc i s t he
    · rwa [i.operands_length]
    · exact absurd rfl (hcall opA)
    · exact absurd rfl hret
  · simp at hnone

/-- Settles O40: an effect's memory is the old one, or for PUSH and CALL a write below the stack top; a fault writes
nothing. -/
theorem onlyPushAndCallWriteMemory : Obligations.OnlyPushAndCallWriteMemory := by
  intro i s t h
  obtain he | ⟨c, _, rfl⟩ := (exec_next i s t).mp h
  · obtain hsame | ⟨_, ⟨opA, hi⟩, v, hwrite⟩ := effect_memory i s t he
    · exact ⟨fun _ _ a => by rw [hsame], fun a _ => by rw [hsame]⟩
    · refine ⟨fun hpush hcall => ?_, fun a ha => by rw [hwrite, Memory.read_write, if_neg ha]⟩
      exact (hi.elim (hpush opA) (hcall opA)).elim
  · exact ⟨fun _ _ _ => rfl, fun _ _ => rfl⟩

end Sys2Proof.Machine

namespace Sys2Proof.Machine

/-! ### The ALU (R120 to R124) -/

/-- Settles O41: the first three clauses are cases of the ALU's faults, and its success is one register write. -/
theorem aluContract : Obligations.AluContract := by
  refine ⟨fun tag dest src s hd => (aluApply_error ..).mpr (.inl ⟨hd, rfl⟩),
    fun tag dest src s hd hs => (aluApply_error ..).mpr (.inr (.inl ⟨hd, hs, rfl⟩)),
    fun n dest src s hd hs => (aluApply_error ..).mpr (.inr (.inr ⟨hd, hs, ⟨n, rfl⟩, rfl⟩)),
    fun tag dest src s t h => ?_⟩
  obtain ⟨hd, _, v, _, rfl⟩ := (aluApply_ok ..).mp h
  refine ⟨fun _ => rfl, rfl, ⟨rfl, rfl, rfl⟩, rfl, fun q hq => ?_⟩
  rw [State.setReg_reg, if_neg fun heq => hq (congrArg Fin.val heq)]

/-- The exact sum, narrowed, is the sum of bytes. -/
theorem narrow_add (a b : Byte) : narrow (a.toNat + b.toNat) = a + b := by simp [narrow, BitVec.ofNat_add]

/-- The exact product, narrowed, is the product of bytes. -/
theorem narrow_mul (a b : Byte) : narrow (a.toNat * b.toNat) = a * b := by simp [narrow, BitVec.ofNat_mul]

/-- Settles O42: the results are the byte sum and product, whose signed readings the library gives. -/
theorem aluResultsReadSigned : Obligations.AluResultsReadSigned := by
  refine fun a b v => ⟨fun h => ?_, fun h => ?_⟩
  · obtain rfl : narrow (a.toNat + b.toNat) = v := by simpa [aluValue] using h
    rw [narrow_add, BitVec.toInt_add]
  · obtain rfl : narrow (a.toNat * b.toNat) = v := by simpa [aluValue] using h
    rw [narrow_mul, BitVec.toInt_mul]

end Sys2Proof.Machine

namespace Sys2Proof.Machine

/-! ### The stack (R52, R142) -/

/-- Below a stack top that is not 0 there is room for a pop. -/
theorem byte_sub_one_ne_255 (b : Byte) (h : b ≠ 0) : b - 1 ≠ 255 := by
  intro heq
  have hlt := b.isLt
  have hsub := byte_sub_one b h
  simp only [heq, BitVec.reduceToNat] at hsub
  omega

/-- Settles O43, from the rules of PUSH and POP: the byte below the stack top is the one PUSH stored, and SP comes back
up to where it was. For R7 the stored byte is the new SP, which POP increments. -/
theorem pushThenPopRestores : Obligations.PushThenPopRestores := by
  intro r r' s h h' hsp hr7
  obtain ⟨_, _, _, _, hpush⟩ := pushStoresBelowTheStackTop
  obtain ⟨_, _, _, _, hpop, hpop7⟩ := popLoadsTheStackTop
  obtain ⟨t, ht, hreg, hmem, _, ⟨_, hfault, _⟩, _⟩ := hpush r s h hsp
  have htsp : t.sp = s.sp - 1 := hreg 7
  have hbyte : t.mem.read t.sp.toNat = if r = 7 then s.sp - 1 else s.reg ⟨r.toNat, h⟩ := by
    rw [htsp, hmem, if_pos rfl]
  by_cases hr : r = 7
  · obtain rfl : r' = 7 := hr7.mp hr
    subst hr
    rw [if_pos rfl] at hbyte
    obtain ⟨u, hu, hureg, _, _, ⟨_, hufault, _⟩, _⟩ := hpop7 t (by rw [hbyte]; exact byte_sub_one_ne_255 _ hsp)
    have husp : u.sp = s.sp := by rw [State.sp, hureg, if_pos rfl, hbyte, BitVec.sub_add_cancel]
    exact ⟨t, u, ht, hu, husp, husp, hufault.trans hfault⟩
  · have hr' : r' ≠ 7 := fun heq => hr (hr7.mpr heq)
    have hlt : r'.toNat < 7 := by
      have : r'.toNat ≠ 7 := fun heq => hr' (BitVec.eq_of_toNat_eq heq)
      omega
    rw [if_neg hr] at hbyte
    obtain ⟨u, hu, hureg, _, _, ⟨_, hufault, _⟩, _⟩ := hpop r' t hlt (by rw [htsp]; exact byte_sub_one_ne_255 _ hsp)
    refine ⟨t, u, ht, hu, ?_, ?_, hufault.trans hfault⟩
    · rw [hureg, if_neg (by simp [Fin.ext_iff]; omega), if_pos rfl, hbyte]
    · rw [State.sp, hureg, if_pos rfl, htsp, BitVec.sub_add_cancel]

/-- Settles O44, from the rules of CALL and RET: RET reads the byte CALL stored, which is the return address. -/
theorem callThenRetReturns : Obligations.CallThenRetReturns := by
  intro r s h hsp hpc
  obtain ⟨_, _, _, _, _, hcall⟩ := callPushesTheReturnAddress
  obtain ⟨_, _, hret⟩ := retPopsTheReturnAddress
  obtain ⟨t, ht, _, hreg, hbyte, _, ⟨_, hfault, _⟩, _⟩ := hcall r s h hsp hpc
  have htsp : t.sp = s.sp - 1 := hreg 7
  refine ⟨t, ht, hfault, fun u husp humem => ?_⟩
  rw [htsp] at husp
  obtain ⟨v, hv, hvpc, hvreg, _, ⟨_, hvfault, _⟩, _⟩ := hret u (by rw [husp]; exact byte_sub_one_ne_255 _ hsp)
  refine ⟨v, hv, hvfault, BitVec.eq_of_toNat_eq ?_, ?_⟩
  · rw [hvpc, humem, husp, hbyte]
    exact (toNat_pc_add s.pc 2 (by omega)).symm
  · rw [State.sp, hvreg, if_pos rfl, husp, BitVec.sub_add_cancel]

/-- One execution more, after executions that answered a state. -/
theorem execTimes_succ (i : Instr) (n : Nat) (s t : State) (h : execTimes i n s = .next t) :
    execTimes i (n + 1) s = exec i t := by
  induction n generalizing s with
  | zero =>
    obtain rfl : s = t := by simpa [execTimes] using h
    obtain ⟨u, hu⟩ := exec_answers_next i s
    simp [execTimes, hu]
  | succ n ih =>
    rw [execTimes] at h ⊢
    obtain ⟨u, hu⟩ := exec_answers_next i s
    rw [hu] at h ⊢
    exact ih u h

/-- As many PUSHes as SP allows complete, and each takes SP down by one (R142). -/
theorem execTimes_push (r : Byte) (s : State) (h : r.toNat < 8) (hf : s.fault = none) (n : Nat)
    (hn : n ≤ s.sp.toNat) :
    ∃ t, execTimes (.push r) n s = .next t ∧ t.fault = none ∧ t.sp.toNat = s.sp.toNat - n := by
  induction n with
  | zero => exact ⟨s, rfl, hf, rfl⟩
  | succ n ih =>
    obtain ⟨t, ht, htf, htsp⟩ := ih (by omega)
    have hroom : t.sp ≠ 0 := by
      intro h0
      simp only [h0, BitVec.reduceToNat] at htsp
      omega
    refine ⟨_, (execTimes_succ _ n s t ht).trans (exec_push r t h hroom), htf, ?_⟩
    rw [State.advance_sp, State.store_sp, State.setSp_sp, byte_sub_one _ hroom]
    omega

/-- Settles O45: after SP PUSHes SP is 0, where one more faults. -/
theorem pushesUntilTheStackIsFull : Obligations.PushesUntilTheStackIsFull := by
  refine fun r s h hf => ⟨execTimes_push r s h hf, ?_⟩
  obtain ⟨t, ht, _, htsp⟩ := execTimes_push r s h hf s.sp.toNat le_rfl
  have hfull : t.sp = 0 := BitVec.eq_of_toNat_eq (by simpa using htsp)
  exact ⟨_, (execTimes_succ _ _ s t ht).trans (exec_push_stackOverflow r t h hfull), t.pc, rfl⟩

/-- Settles O46: the fetch reads the memory PUSH left, at the address it wrote. -/
theorem fetchSeesPushedBytes : Obligations.FetchSeesPushedBytes := by
  intro r s t u h h7 hsp ht humem k haddr
  obtain ⟨_, _, _, _, hpush⟩ := pushStoresBelowTheStackTop
  obtain ⟨t', ht', _, hmem, _⟩ := hpush r s h hsp
  obtain rfl : t' = t := by simpa [ht'] using ht
  have hlt := (s.sp - 1).isLt
  rw [State.fetchByte_eq, haddr, if_pos (by omega), humem, hmem, if_pos rfl, if_neg h7]

end Sys2Proof.Machine

namespace Sys2Proof.Machine

/-! ### The host's ports (R192, R210 to R212) -/

/-- Settles O1: the values are `State.reset`'s fields, and the reset port answers `Session.fresh` from any session. -/
theorem resetGivesConstructionState : Obligations.ResetGivesConstructionState :=
  ⟨State.reset_read, State.reset_reg, rfl, rfl, rfl, rfl, fun _ _ => ⟨.fresh, rfl, rfl, rfl⟩⟩

section Loadable

variable (p : Params) (h : Session) (hphase : h.phase = .loadable)
include hphase

/-- A program that fits is written, and loading stays open (R211, log entry 12). -/
theorem input_load_fits (bytes : List Byte) (hlen : bytes.length ≤ 256) :
    h.input p (.load bytes) = some { h with core := h.core.loadBytes bytes } := by
  have hload : h.core.loadProgram bytes = .ok (h.core.loadBytes bytes) :=
    (State.loadProgram_ok ..).mpr ⟨hlen, rfl⟩
  simp [Session.input, Session.load, hphase, Except.bind, hload]

/-- A program that does not fit is recorded as a failed load, and the core is as before (R211, R212). -/
theorem input_load_tooLarge (bytes : List Byte) (hlen : 256 < bytes.length) :
    h.input p (.load bytes) = some { h with phase := .loadFailed .programTooLarge } := by
  have hload : h.core.loadProgram bytes = .error .programTooLarge := if_pos hlen
  simp [Session.input, Session.load, hphase, Except.bind, hload]

/-- A program the host cannot give is recorded as a failed load, and the core is as before (R212). -/
theorem input_loadError : h.input p .loadError = some { h with phase := .loadFailed .loadError } := by
  simp [Session.input, Session.load, hphase, Except.bind]

end Loadable

/-- No program is loaded, and none fails to, once loading is closed (R211, log entry 12). -/
theorem load_closed (h : Session) (hphase : h.phase ≠ .loadable) (program : Except LoadFailure (List Byte)) :
    h.load program = none := by
  unfold Session.load
  split
  · contradiction
  · rfl
  · rfl

/-- Where the step port is open it runs one cycle and starts the run (R192, R211). -/
theorem input_step (p : Params) (h h' : Session) (hstep : h.input p .step = some h') :
    ∃ t, cycle p h.core = .next t ∧ h' = { core := t, phase := .started } := by
  obtain ⟨t, ht⟩ := cycle_answers_next p h.core
  refine ⟨t, ht, ?_⟩
  simp only [Session.input, Session.step, ht] at hstep
  split at hstep
  · cases hstep
  · exact (Option.some.inj hstep).symm
  · exact (Option.some.inj hstep).symm

/-- After a failed load the step port is closed (R212). -/
theorem input_step_loadFailed (p : Params) (h : Session) (why : LoadFailure) (hphase : h.phase = .loadFailed why) :
    h.input p .step = none := by
  simp [Session.input, Session.step, hphase]

/-- Settles O3: a program that fits is written over reset's memory, and a step closes loading. -/
theorem loadWritesProgramFromZero : Obligations.LoadWritesProgramFromZero := by
  refine ⟨fun p bytes hlen => ⟨_, input_load_fits p .fresh rfl bytes hlen, rfl, fun a ha => ?_, fun a ha => ?_,
      State.reset.mem.wf_writeBytes _ bytes (by simpa [Config.loadBase] using hlen) Memory.wf_reset, rfl, rfl, rfl,
      rfl, rfl⟩,
    fun p bytes hlen => ⟨_, input_load_tooLarge p .fresh rfl bytes hlen, rfl⟩, fun p h h' bytes hstep => ?_⟩
  · rw [State.loadBytes_read, dif_pos ha]
  · rw [State.loadBytes_read, dif_neg (by omega)]
    exact State.reset_read a
  · obtain ⟨t, _, rfl⟩ := input_step p h h' hstep
    exact load_closed ⟨t, .started⟩ (by simp) (.ok bytes)

/-- Settles O4: either failure changes the phase only, and a failed load's phase closes step and load. -/
theorem failedLoadRunsNoCycle : Obligations.FailedLoadRunsNoCycle := by
  intro p x why hx h hphase
  have hinput : h.input p x = some { h with phase := .loadFailed why } := by
    obtain ⟨bytes, rfl, hlen, rfl⟩ | ⟨rfl, rfl⟩ := hx
    · exact input_load_tooLarge p h hphase bytes hlen
    · exact input_loadError p h hphase
  exact ⟨_, hinput, rfl, rfl, input_step_loadFailed p _ why rfl,
    fun bytes => load_closed ⟨h.core, .loadFailed why⟩ (by simp) (.ok bytes)⟩

/-- Settles O47: the stopped core's step answers its own state, and loading is closed in a started session. -/
theorem stopStateStaysVisibleAndIsLeftByResetOnly : Obligations.StopStateStaysVisibleAndIsLeftByResetOnly := by
  refine ⟨fun s => ⟨s.inspect_length, s.inspect_cell, fun _ => rfl, rfl, rfl⟩,
    fun p h h' hstep => ?_, fun p h h' x hstop hphase hx => ?_⟩
  · obtain ⟨_, _, rfl⟩ := input_step p h h' hstep
    rfl
  have hclosed := load_closed h (by simp [hphase])
  cases x with
  | reset =>
    cases hx
    exact ⟨fun hne => absurd rfl hne, fun _ => rfl⟩
  | load bytes => simp [Session.input, hclosed] at hx
  | loadError => simp [Session.input, hclosed] at hx
  | step =>
    obtain ⟨t, hcycle, rfl⟩ := input_step p h h' hx
    rw [cycle_stopped p _ hstop] at hcycle
    cases hcycle
    rw [← hphase]
    exact ⟨fun _ => rfl, nofun⟩

end Sys2Proof.Machine
